-- ==== Sys2Proof/Word.lean ====
section
/-!
DEFINITION. The plain data types of the Cuboot display link: bytes and request words (R7), and the three framebuffer
coordinates (R6, R28).  Nothing here carries a rule of its own.
-/

namespace Sys2Proof

/-- A byte, 8 bits (R7): a framebuffer byte, a link byte, a glyph byte or an 8-bit operand field. -/
abbrev Byte := BitVec 8

/-- A request word, WORD_BITS = 32 bits (R6, R7, R44). -/
abbrev Word := BitVec 32

/-- A framebuffer column `c ∈ [0,128)` (R6 WIDTH, R28). -/
abbrev Column := Fin 128

/-- A framebuffer page `p ∈ [0,8)` (R6 PAGES, R28). -/
abbrev Page := Fin 8

/-- A pixel row `y ∈ [0,64)` (R6 HEIGHT, R29). -/
abbrev Row := Fin 64

end Sys2Proof
end

