-- ==== Sys2Proof/Config.lean ====
section
/-!
DEFINITION. The parameters of the block (R6).  A parameter to which R6 gives a value is a constant here.  A parameter
R6 marks OPEN is a field of `Params`, which the machine carries as plain data and no request changes (R25); the
parameters of the machine right after power-up are `Config.params`.  What is a constant here and what a field is log
entry 16 (DESIGN CHOICE, unsafe).  The opaque constants have no value anyone can prove.
-/

namespace Sys2Proof.Config

/-- DC_CMD_LEVEL = 1: the mode-select level of a command byte (R6, R66). -/
abbrev dcCmdLevel : Bool := true

/-- RESET_HOLD_MIN = 100, in TIME_UNITs (R6, R75). -/
abbrev resetHoldMin : Nat := 100

/-- COORD_MAX = 255 (R6, R86). -/
abbrev coordMax : Nat := 255

/-- GLYPH_FIRST = 0x20, the code of space (R6, R87). -/
abbrev glyphFirst : Nat := 0x20

/-- The last printable code 0x7E: GLYPH_COUNT = 95 entries from GLYPH_FIRST (R6, R21, R59). -/
abbrev glyphLast : Nat := 0x7E

/-- GLYPH_COLUMN_BREAK = false for this hardware (R6, R88). -/
abbrev glyphColumnBreak : Bool := false

/-- NUMBER_MAX_DIGITS = 10 (R6, R59). -/
abbrev numberMaxDigits : Nat := 10

/-- TEXT_ADVANCE = 8 columns (R6, R92). -/
abbrev textAdvance : Nat := 8

/-- TEXT_WRAP_X = 122: TEXT wraps when x > 122 (R6, R92). -/
abbrev textWrapX : Nat := 122

/-- TEXT_LINE_STEP = 16 rows (R6, R92). -/
abbrev textLineStep : Nat := 16

/-- TEXT_CLEAR_Y = 58: TEXT clears when y > 58 (R6, R92). -/
abbrev textClearY : Nat := 58

/-- One entry of INIT_SEQ: an opcode byte and the argument bytes that follow it at once (R76). -/
structure InitEntry where
  opcode : Byte
  args   : List Byte
deriving DecidableEq, Repr

/-- What each of the 16 commands of INIT_SEQ configures (R76, R64). -/
inductive InitCommand where
  | displayOff
  | clockDivideRatio
  | multiplexRatio
  | displayVerticalOffset
  | displayStartLine
  | chargePump
  | memoryAddressingMode
  | segmentRemap
  | comOutputScanDirection
  | comPinConfiguration
  | contrastLevel
  | prechargePeriod
  | vcomhDeselectLevel
  | entireDisplayOnDisabled
  | normalPolarity
  | displayOn
deriving DecidableEq, Repr

/-- The strict order of the 16 commands (R76). -/
def initOrder : Vector InitCommand 16 :=
  #v[.displayOff, .clockDivideRatio, .multiplexRatio, .displayVerticalOffset, .displayStartLine, .chargePump,
     .memoryAddressingMode, .segmentRemap, .comOutputScanDirection, .comPinConfiguration, .contrastLevel,
     .prechargePeriod, .vcomhDeselectLevel, .entireDisplayOnDisabled, .normalPolarity, .displayOn]

/-- The default bytes of each command (R64; general knowledge in the spec's own marking, log entry 3). -/
def InitCommand.defaultEntry : InitCommand → InitEntry
  | .displayOff              => ⟨0xAE, []⟩
  | .clockDivideRatio        => ⟨0xD5, [0x80]⟩
  | .multiplexRatio          => ⟨0xA8, [0x3F]⟩
  | .displayVerticalOffset   => ⟨0xD3, [0x00]⟩
  | .displayStartLine        => ⟨0x40, []⟩
  | .chargePump              => ⟨0x8D, [0x14]⟩
  | .memoryAddressingMode    => ⟨0x20, [0x02]⟩
  | .segmentRemap            => ⟨0xA1, []⟩
  | .comOutputScanDirection  => ⟨0xC0, []⟩
  | .comPinConfiguration     => ⟨0xDA, [0x12]⟩
  | .contrastLevel           => ⟨0x81, [0xEF]⟩
  | .prechargePeriod         => ⟨0xD9, [0xF1]⟩
  | .vcomhDeselectLevel      => ⟨0xDB, [0x30]⟩
  | .entireDisplayOnDisabled => ⟨0xA4, []⟩
  | .normalPolarity          => ⟨0xA6, []⟩
  | .displayOn               => ⟨0xAF, []⟩

/-- The glyph tables' shape: 95 entries of `h` bytes each (R21). -/
abbrev GlyphTable (h : Nat) := Vector (Vector Byte h) 95

/-- The OPEN parameters of R6.  They are arguments of the model: a statement about every state is a statement about
every value of them. -/
structure Params where
  /-- TIME_UNIT, the length of one unit of the reset hold (R6, R112).  Only `Event.minDuration` reads it. -/
  timeUnit      : Nat
  /-- INIT_SEQ, 16 entries in the order of R76. -/
  initSeq       : Vector InitEntry 16
  /-- PAGE_SEL(p) for each page p (R82). -/
  pageSel       : Vector Byte 8
  /-- COL_LO (R82). -/
  colLo         : Byte
  /-- COL_HI (R82). -/
  colHi         : Byte
  /-- GLYPH12: 95 entries of 12 bytes (R21). -/
  glyph12       : GlyphTable 12
  /-- GLYPH16: 95 entries of 16 bytes (R21). -/
  glyph16       : GlyphTable 16
  /-- TEXT_CLEAR_PUSH: whether TEXT's layout clear also refreshes (R92). -/
  textClearPush : Bool
deriving DecidableEq, Repr

/-- TIME_UNIT at power-up: a free value, the spec gives none (log entry 4). -/
opaque timeUnit : Nat

/-- GLYPH12 at power-up: a free value, the spec gives no glyph data (log entry 4). -/
opaque glyph12 : GlyphTable 12

/-- GLYPH16 at power-up: a free value, the spec gives no glyph data (log entry 4). -/
opaque glyph16 : GlyphTable 16

/-- TEXT_CLEAR_PUSH at power-up: a free value, the spec leaves it open (log entry 4). -/
opaque textClearPush : Bool

/-- What a framebuffer byte nothing has written holds when an operation reads it, by `fbaddr`: any value
(I12; log entry 5). -/
opaque powerUpByte : Nat → Byte

/-- What GlyphByte gives outside the domain R87 requires (character, byte index): any value (log entry 10). -/
opaque offTableByte : Byte → Nat → Byte

/-- What the framing observer reads from a line that was never driven: any level (I13; log entry 11). -/
opaque undrivenSample : Bool

/-- The default INIT_SEQ (R64): the default entry of each command, in the order of R76. -/
def defaultInitSeq : Vector InitEntry 16 := initOrder.map InitCommand.defaultEntry

/-- The default PAGE_SEL(p) = 0xB0 + p (R64). -/
def defaultPageSel : Vector Byte 8 := #v[0xB0, 0xB1, 0xB2, 0xB3, 0xB4, 0xB5, 0xB6, 0xB7]

/-- The parameters of the machine at power-up: R64's defaults for the link command bytes (log entry 3), free values for
the parameters that have no default (log entry 4). -/
def params : Params where
  timeUnit      := timeUnit
  initSeq       := defaultInitSeq
  pageSel       := defaultPageSel
  colLo         := 0x00
  colHi         := 0x10
  glyph12       := glyph12
  glyph16       := glyph16
  textClearPush := textClearPush

end Sys2Proof.Config
end

