-- ==== Sys2Proof/Syntax.lean ====
section
/-!
DEFINITION. The requests of the block as syntax: one constructor for each of the eight operations of R4, which are the
eight rows of the opcode table.
-/

namespace Sys2Proof

/-- The font field F of GLYPH and NUMBER (R56): F = 0 selects the 12-row font, F = 1 the 16-row font. -/
inductive Font where
  | px12
  | px16
deriving DecidableEq, Repr

/-- A request (R4), with its operands as the fields of its encoding give them (R56). -/
inductive Instr where
  /-- INIT, format Z, OP 0x1 (R47, R77). -/
  | init
  /-- SEND, format S, OP 0x2: `isCommand` is C, `value` is V (R48, R71). -/
  | send (isCommand : Bool) (value : Byte)
  /-- SETPIX, format P, OP 0x3 (R49, R81). -/
  | setpix (x y : Byte) (on : Bool)
  /-- REFRESH, format Z, OP 0x4 (R50, R83). -/
  | refresh
  /-- CLEAR, format Z, OP 0x5 (R51, R85). -/
  | clear
  /-- GLYPH, format G, OP 0x6: `ch` is CH, `font` is F, `normal` is P (R52, R89). -/
  | glyph (x y ch : Byte) (font : Font) (normal : Bool)
  /-- NUMBER, format N, OP 0x7: `digits` is N, `value` is the whole second word (R53, R91). -/
  | number (x y : Byte) (digits : BitVec 4) (font : Font) (value : Word)
  /-- TEXT, format T, OP 0x8: `chars` is the string before its terminator (R54, R55, R93). -/
  | text (x y : Byte) (chars : List Byte)
deriving DecidableEq, Repr

end Sys2Proof
end

