-- ==== Sys2Proof/WellFormed.lean ====
section
/-!
DEFINITION. Which requests are well-formed: the operand range checks of R59.  Every other operand value a field can
hold is legal (R49, R53).
-/

namespace Sys2Proof

/-- A character code the glyph tables hold, `[0x20, 0x7E]` (R59). -/
def isPrintable (ch : Byte) : Bool :=
  decide (Config.glyphFirst ≤ ch.toNat ∧ ch.toNat ≤ Config.glyphLast)

/-- The range checks of R59: CH of GLYPH, N of NUMBER, and every character of TEXT. -/
def Instr.wellFormed : Instr → Bool
  | .init => true
  | .send _ _ => true
  | .setpix _ _ _ => true
  | .refresh => true
  | .clear => true
  | .glyph _ _ ch _ _ => isPrintable ch
  | .number _ _ digits _ _ => decide (digits.toNat ≤ Config.numberMaxDigits)
  | .text _ _ chars => chars.all isPrintable

end Sys2Proof
end

