-- ==== Sys2Proof/Decode.lean ====
section
/-!
DEFINITION. Request decode, total on every list of words (R44 to R61), and after it the encoder, written from the same
format tables (R47 to R55).
-/

namespace Sys2Proof

/-! ## Fields and string words -/

/-- The field of `len` bits of a word whose lowest bit is bit `lo`: `w[lo + len - 1 : lo]` (R7). -/
def field (w : Word) (lo len : Nat) : BitVec len := w.extractLsb' lo len

/-- `OP = W[31:28]` (R44). -/
def opField (w : Word) : BitVec 4 := field w 28 4

/-- The font a bit F selects (R56). -/
def fontOfBit : Bool → Font
  | false => .px12
  | true => .px16

/-- The bit F of a font (R56). -/
def fontBit : Font → Bool
  | .px12 => false
  | .px16 => true

/-- The four string bytes of a string word, least significant byte first (R55.1). -/
def wordBytes (w : Word) : List Byte := [field w 0 8, field w 8 8, field w 16 8, field w 24 8]

/-- The string words of a TEXT: up to and including the first word that holds a 0x00 byte (R46).  `none` when no word
does: the request is incomplete (R61). -/
def stringWords : List Word → Option (List Word)
  | [] => none
  | w :: rest => if (wordBytes w).contains 0 then some [w] else (stringWords rest).map (w :: ·)

/-! ## Decode -/

/-- Why a request is ILLEGAL (R57, R58, R59).  Every reason records the same fault code (R100). -/
inductive IllegalReason where
  /-- OP ∈ {0x0, 0x9 to 0xF} (R57). -/
  | reservedOp
  /-- A nonzero reserved-zero bit of the first word (R58). -/
  | reservedBits
  /-- A nonzero byte after the terminator in TEXT's last string word (R58). -/
  | textPadding
  /-- A character code outside [0x20, 0x7E] (R59). -/
  | charRange
  /-- NUMBER with N > 10 (R59). -/
  | digitCount
deriving DecidableEq, Repr

/-- What decode finds at the head of a list of words (R60): a request and its length in words, an illegal request, or
an incomplete one. -/
inductive DecodeResult where
  | request (i : Instr) (length : Nat)
  | illegal (why : IllegalReason)
  | incomplete
deriving DecidableEq, Repr

/-- The operand range check of R59, made on a request whose reserved bits are zero. -/
def checked (i : Instr) (length : Nat) (why : IllegalReason) : DecodeResult :=
  if i.wellFormed then .request i length else .illegal why

/-- Format Z (R47, R50, R51): bits 27:0 are reserved-zero. -/
def decodeZ (i : Instr) (w : Word) : DecodeResult :=
  if field w 0 28 ≠ 0 then .illegal .reservedBits else .request i 1

/-- Format S (R48). -/
def decodeS (w : Word) : DecodeResult :=
  if field w 9 19 ≠ 0 then .illegal .reservedBits
  else .request (.send (w.getLsbD 8) (field w 0 8)) 1

/-- Format P (R49). -/
def decodeP (w : Word) : DecodeResult :=
  if field w 17 11 ≠ 0 then .illegal .reservedBits
  else .request (.setpix (field w 0 8) (field w 8 8) (w.getLsbD 16)) 1

/-- Format G (R52). -/
def decodeG (w : Word) : DecodeResult :=
  if field w 26 2 ≠ 0 then .illegal .reservedBits
  else checked (.glyph (field w 0 8) (field w 8 8) (field w 16 8) (fontOfBit (w.getLsbD 24)) (w.getLsbD 25)) 1
    .charRange

/-- Format N (R53), with the second word. -/
def decodeN (w w1 : Word) : DecodeResult :=
  if field w 25 3 ≠ 0 ∨ field w 20 4 ≠ 0 then .illegal .reservedBits
  else checked (.number (field w 0 8) (field w 8 8) (field w 16 4) (fontOfBit (w.getLsbD 24)) w1) 2 .digitCount

/-- Format T (R54, R55), with the string words: the string is the bytes before the first 0x00, and every byte after
it is 0x00. -/
def decodeT (w : Word) (ws : List Word) : DecodeResult :=
  let bytes := ws.flatMap wordBytes
  if field w 16 12 ≠ 0 then .illegal .reservedBits
  else if (bytes.dropWhile (· ≠ 0)).any (· ≠ 0) then .illegal .textPadding
  else checked (.text (field w 0 8) (field w 8 8) (bytes.takeWhile (· ≠ 0))) (1 + ws.length) .charRange

/-- NUMBER: two words, incomplete without the second (R53, R61). -/
def decodeNumber (w : Word) : List Word → DecodeResult
  | [] => .incomplete
  | w1 :: _ => decodeN w w1

/-- TEXT: incomplete without a terminator (R54, R61). -/
def decodeText (w : Word) (rest : List Word) : DecodeResult :=
  match stringWords rest with
  | none => .incomplete
  | some ws => decodeT w ws

/-- Decode a request whose OP is the given number, from its first word and the words behind it (R45, R57). -/
def decodeOp (op : Nat) (w : Word) (rest : List Word) : DecodeResult :=
  match op with
  | 0x1 => decodeZ .init w
  | 0x2 => decodeS w
  | 0x3 => decodeP w
  | 0x4 => decodeZ .refresh w
  | 0x5 => decodeZ .clear w
  | 0x6 => decodeG w
  | 0x7 => decodeNumber w rest
  | 0x8 => decodeText w rest
  | _ => .illegal .reservedOp

/-- Decode the request at the head of a list of words (R45, R60).  Completeness is settled before legality (R100). -/
def decode : List Word → DecodeResult
  | [] => .incomplete
  | w :: rest => decodeOp (opField w).toNat w rest

/-! ## Encode -/

/-- Format Z with the operation `op` (R47). -/
def encodeZ (op : BitVec 4) : Word := op ++ 0#28

/-- Format S (R48). -/
def encodeS (isCommand : Bool) (value : Byte) : Word := 0x2#4 ++ 0#19 ++ BitVec.ofBool isCommand ++ value

/-- Format P (R49). -/
def encodeP (x y : Byte) (on : Bool) : Word := 0x3#4 ++ 0#11 ++ BitVec.ofBool on ++ y ++ x

/-- Format G (R52). -/
def encodeG (x y ch : Byte) (font : Font) (normal : Bool) : Word :=
  0x6#4 ++ 0#2 ++ BitVec.ofBool normal ++ BitVec.ofBool (fontBit font) ++ ch ++ y ++ x

/-- Format N, the first word (R53). -/
def encodeN (x y : Byte) (digits : BitVec 4) (font : Font) : Word :=
  0x7#4 ++ 0#3 ++ BitVec.ofBool (fontBit font) ++ 0#4 ++ digits ++ y ++ x

/-- Format T, the first word (R54). -/
def encodeT (x y : Byte) : Word := 0x8#4 ++ 0#12 ++ y ++ x

/-- A string word of four string bytes, the first in bits 7:0 (R55.1). -/
def packWord (b0 b1 b2 b3 : Byte) : Word := b3 ++ b2 ++ b1 ++ b0

/-- The string words of a text: its characters, the terminator, and zero padding (R55). -/
def packString : List Byte → List Word
  | [] => [packWord 0 0 0 0]
  | [a] => [packWord a 0 0 0]
  | [a, b] => [packWord a b 0 0]
  | [a, b, c] => [packWord a b c 0]
  | a :: b :: c :: d :: rest => packWord a b c d :: packString rest

/-- The words of a request (R45, R47 to R55). -/
def encode : Instr → List Word
  | .init => [encodeZ 0x1]
  | .send c v => [encodeS c v]
  | .setpix x y on => [encodeP x y on]
  | .refresh => [encodeZ 0x4]
  | .clear => [encodeZ 0x5]
  | .glyph x y ch font normal => [encodeG x y ch font normal]
  | .number x y n font value => [encodeN x y n font, value]
  | .text x y chars => encodeT x y :: packString chars

/-- `k = (n div 4) + 1`, the string words of a text of `n` characters (R55.2). -/
def textWords (chars : List Byte) : Nat := chars.length / 4 + 1

/-- The length of a request in words (R46). -/
def Instr.words : Instr → Nat
  | .init => 1
  | .send _ _ => 1
  | .setpix _ _ _ => 1
  | .refresh => 1
  | .clear => 1
  | .glyph _ _ _ _ _ => 1
  | .number _ _ _ _ _ => 2
  | .text _ _ chars => 1 + textWords chars

/-! ## The host's numbering of an instruction's bits -/

/-- The words an instruction of the opcode table lays out: bit 0 of `w` is bit 0 of the first word, later words count
on from it, and one zero word stands behind them, which completes a NUMBER or a TEXT whose operand words are zeros. -/
def tableWords (nbits w : Nat) : List Word :=
  (List.range ((nbits + 31) / 32)).map (fun j => BitVec.ofNat 32 ((w % 2 ^ nbits) >>> (32 * j))) ++ [0]

/-- The instruction the decoder reads from an instruction's bits, as the opcode table numbers them. -/
def decodeTableWord (nbits w : Nat) : Option Instr :=
  match decode (tableWords nbits w) with
  | .request i _ => some i
  | .illegal _ => none
  | .incomplete => none

end Sys2Proof
end

