-- ==== Sys2Proof/Machine/State.lean ====
section
/-!
DEFINITION. The state of the block (R11): `(MODE, FAULT, RP, FB, LINES, TRACE, RESP)`, beside the two inputs that are
fixed for a run, the request stream and the OPEN parameters (R25; log entries 1 and 2).  Plain data throughout.
-/

namespace Sys2Proof.Machine

/-- MODE (R12, S0). -/
inductive Mode where
  | uninit
  | ready
deriving DecidableEq, Repr

/-- The contents of the FAULT register (R13, S1): NONE, or the cause of R98. -/
inductive FaultCode where
  | none
  | illegal
  | notReady
  | reinit
  | coordOverflow
deriving DecidableEq, Repr

/-- The level of a line: 0, 1, or X, not driven since power-up (R10). -/
inductive Level where
  | low
  | high
  | x
deriving DecidableEq, Repr

/-- The four output lines (R2). -/
inductive LineId where
  | clk
  | din
  | res
  | dc
deriving DecidableEq, Repr

/-- LINES, four line registers (R16, S2). -/
structure Lines where
  clk : Level
  din : Level
  res : Level
  dc  : Level
deriving DecidableEq, Repr

/-- An event of TRACE (R17): `line s l`, line s was driven to level l (`true` is 1); `wait n`, at least n TIME_UNITs
passed before the next event. -/
inductive Event where
  | line (s : LineId) (l : Bool)
  | wait (n : Nat)
deriving DecidableEq, Repr

/-- A response code (R18). -/
inductive Response where
  | ok
  | outOfBounds
deriving DecidableEq, Repr

/-- Why a step of the machine answers no next state.  No meaning of a request answers one: `raise Fault` is a next
state whose FAULT register is written (R99), and only the step after it stops (DEDUCED, safe: log entry 6).  The names
of the three are the model's (DESIGN CHOICE, safe: log entry 7). -/
inductive Fault where
  /-- Raised by `step` when FAULT ≠ NONE: the block has halted (R99, R101).  Safe: the spec gives no further step. -/
  | halted (code : FaultCode)
  /-- Raised by `step` when the request at RP is incomplete: the block is stuck (R61, R102).  Safe: the spec gives no
  step. -/
  | stuck
  /-- Raised by `step` when RP is at the end of the stream: there is no request, the run is finished (R95, R111).  It is
  no fault of the block.  Safe: the spec gives no step. -/
  | endOfStream
deriving DecidableEq, Repr

/-- Why the model has no meaning for an instruction. -/
inductive Refusal where
  /-- Raised by an arm of `exec` that has no meaning yet.  Safe.  No arm raises it. -/
  | notModelled (mnemonic : String)
deriving DecidableEq, Repr

/-- The state of the block, and the fixed inputs of its run. -/
structure State where
  /-- MODE (R12). -/
  mode   : Mode
  /-- FAULT (R13). -/
  fault  : FaultCode
  /-- RP, the word index of the next request (R14). -/
  rp     : Nat
  /-- FB (R15, R28): the framebuffer bytes that have been written, keyed by `fbaddr` in the canonical form of
  `Memory.wf`.  A byte that is not listed is X. -/
  fb     : List Host.Cell
  /-- LINES (R16). -/
  lines  : Lines
  /-- TRACE, oldest event first (R17). -/
  trace  : List Event
  /-- RESP, oldest code first (R18). -/
  resp   : List Response
  /-- The request stream (R26.1): the program, an input no request writes (R25, R43; log entry 1). -/
  stream : List Word
  /-- The OPEN parameters and the glyph ROM, inputs no request writes (R6, R21, R25; log entry 2). -/
  params : Config.Params
deriving DecidableEq, Repr

/-- Power-up (R24).  The stream is empty: a program is loaded from outside (log entry 8).  The parameters are
`Config.params` (log entries 3 and 4). -/
def State.reset : State where
  mode   := .uninit
  fault  := .none
  rp     := 0
  fb     := []
  lines  := ⟨.x, .x, .x, .x⟩
  trace  := []
  resp   := []
  stream := []
  params := Config.params

/-- The three outcomes of a step of this machine. -/
abbrev StepOutcome := Host.Outcome State Fault Refusal

/-- The result of a piece of a composite request (R88, R91, R92): it went on, with a value, or a coordinate passed
COORD_MAX in the given state (R86). -/
inductive Draw (α : Type) where
  | ok (a : α) (s : State)
  | overflow (s : State)
deriving DecidableEq, Repr

/-- The cursor `(x, y)` of GLYPH and TEXT, exact natural numbers (R8, R22). -/
structure Cursor where
  x : Nat
  y : Nat
deriving DecidableEq, Repr

end Sys2Proof.Machine
end

