-- ==== Sys2Proof/Machine/Memory.lean ====
section
/-!
DEFINITION. The framebuffer as memory (R15, R28): a list of (address, byte) cells in one canonical form, addresses
strictly rising and inside the 1024 bytes.  An address that is not listed has no value: it is X, never written (R24).
-/

namespace Sys2Proof.Machine

/-- The linear index of a framebuffer byte (R28; DESIGN CHOICE, safe: log entry 13). -/
def fbaddr (c : Column) (p : Page) : Nat := c.val * 8 + p.val

/-- FB_BYTES = 1024 (R6). -/
def fbBytes : Nat := 1024

/-- What is listed at an address; `none` is X. -/
def Memory.read : List Host.Cell → Nat → Option Byte
  | [], _ => none
  | (a, v) :: rest, k => if a = k then some v else Memory.read rest k

/-- Write one byte, keeping the addresses strictly rising. -/
def Memory.write : List Host.Cell → Nat → Byte → List Host.Cell
  | [], k, v => [(k, v)]
  | (a, w) :: rest, k, v =>
    if k < a then (k, v) :: (a, w) :: rest
    else if k = a then (k, v) :: rest
    else (a, w) :: Memory.write rest k v

/-- The cells of `n` zero bytes from address `lo` on. -/
def Memory.zerosFrom : Nat → Nat → List Host.Cell
  | 0, _ => []
  | n + 1, lo => (lo, 0) :: Memory.zerosFrom n (lo + 1)

/-- Every byte of the framebuffer written with 0x00.  Irreducible only so that no elaborator unfolds its 1024 cells. -/
@[irreducible] def Memory.zero : List Host.Cell := Memory.zerosFrom fbBytes 0

/-- The addresses are strictly rising, from `lo` on, and each is an address of the framebuffer. -/
def Memory.risesFrom : Nat → List Host.Cell → Bool
  | _, [] => true
  | lo, (a, _) :: rest => decide (lo ≤ a) && decide (a < fbBytes) && Memory.risesFrom (a + 1) rest

/-- The canonical form of the framebuffer's cells. -/
def Memory.wf (m : List Host.Cell) : Bool := Memory.risesFrom 0 m

/-- The byte at column c, page p, as memory lists it: `none` is X (R15, R38). -/
def State.fbCell (s : State) (c : Column) (p : Page) : Option Byte := Memory.read s.fb (fbaddr c p)

/-- `FB[c][p]` as an operation reads it (R9): the last byte written, or any value when there is none
(R38, I12; log entry 5). -/
def State.fbByte (s : State) (c : Column) (p : Page) : Byte :=
  (s.fbCell c p).getD (Config.powerUpByte (fbaddr c p))

/-- `FB[c][p] <- v` (R9). -/
def State.setFbByte (s : State) (c : Column) (p : Page) (v : Byte) : State :=
  { s with fb := Memory.write s.fb (fbaddr c p) v }

end Sys2Proof.Machine
end

