-- ==== Sys2Proof/Machine/Ops.lean ====
section
/-!
DEFINITION. The primitives of R9 over the state, and fault entry (R99).  The block has no return from a fault (R101), so
no operation stands beside `raiseFault`.
-/

namespace Sys2Proof.Machine

/-! ## Lines and trace -/

/-- The level a drive leaves on a line (R10): low for 0, high for 1. -/
def Level.ofBit : Bool → Level
  | false => .low
  | true => .high

/-- Set one line register (R9, R16); the other three hold their level. -/
def Lines.drive (ls : Lines) : LineId → Bool → Lines
  | .clk, l => { ls with clk := Level.ofBit l }
  | .din, l => { ls with din := Level.ofBit l }
  | .res, l => { ls with res := Level.ofBit l }
  | .dc, l => { ls with dc := Level.ofBit l }

/-- What an event does to the lines: a drive sets its line, a wait changes none (R9). -/
def Lines.after (ls : Lines) : Event → Lines
  | .line s l => ls.drive s l
  | .wait _ => ls

/-- Perform a sequence of `Line` and `Wait` events in order: each sets its line and is appended to TRACE (R9, R17).
`emit_cons` says that this is one event after the other. -/
def State.emit (s : State) (es : List Event) : State :=
  { s with lines := es.foldl Lines.after s.lines, trace := s.trace ++ es }

/-- `Line(s, l)` (R9). -/
def State.line (s : State) (id : LineId) (l : Bool) : State := s.emit [.line id l]

/-- `Wait(n)` (R9). -/
def State.wait (s : State) (n : Nat) : State := s.emit [.wait n]

/-! ## Responses, the request pointer and faults -/

/-- `respond(r)` (R9, R18). -/
def State.respond (s : State) (r : Response) : State := { s with resp := s.resp ++ [r] }

/-- `RP <- RP + len` (R9, R14). -/
def State.advance (s : State) (len : Nat) : State := { s with rp := s.rp + len }

/-- The end of every completed request: its response, then the advance of RP by its length (R46, R95.1). -/
def State.complete (s : State) (r : Response) (len : Nat) : State := (s.respond r).advance len

/-- `raise Fault(code)` (R99): FAULT is set, RP stays, nothing is appended.  The block halts: the next step is
`Fault.halted` (R101). -/
def raiseFault (code : FaultCode) (s : State) : State := { s with fault := code }

/-- The check every request but INIT begins with: `if MODE ≠ READY: raise Fault(NOT_READY)` (R98). -/
def whenReady (s : State) (body : State → StepOutcome) : StepOutcome :=
  if s.mode ≠ .ready then .next (raiseFault .notReady s) else body s

/-! ## Composite requests -/

/-- Go on with a result, or stop at the overflow. -/
def Draw.bind {α β : Type} (d : Draw α) (f : α → State → Draw β) : Draw β :=
  match d with
  | .ok a s => f a s
  | .overflow s => .overflow s

/-- The state a result stands at. -/
def Draw.state {α : Type} (d : Draw α) : State :=
  match d with
  | .ok _ s => s
  | .overflow s => s

/-- The end of a composite request (R89, R91, R93): the response OK and the advance, or COORD_OVERFLOW at the state of
the overflowing computation (R99). -/
def Draw.finish {α : Type} (d : Draw α) (len : Nat) : StepOutcome :=
  match d with
  | .ok _ s => .next (s.complete .ok len)
  | .overflow s => .next (raiseFault .coordOverflow s)

/-- `chk(v)` (R86). -/
def chk (v : Nat) (s : State) : Draw Nat :=
  if v > Config.coordMax then .overflow s else .ok v s

end Sys2Proof.Machine
end

