-- ==== Sys2Proof/Machine/Flags.lean ====
section
/-!
DEFINITION. The block has no flags and no condition codes (R20).  What stands here is the one status a request produces,
its response code, and the numbers the spec gives to codes and modes (R18, R98; S0, S1).
-/

namespace Sys2Proof.Machine

/-- OK = 0, OUT_OF_BOUNDS = 1 (R18). -/
def Response.code : Response → Nat
  | .ok => 0
  | .outOfBounds => 1

/-- The fault codes of R98; NONE is 0 (S1). -/
def FaultCode.code : FaultCode → Nat
  | .none => 0
  | .illegal => 1
  | .notReady => 2
  | .reinit => 3
  | .coordOverflow => 4

/-- UNINIT is 0, READY is 1 (S0). -/
def Mode.code : Mode → Nat
  | .uninit => 0
  | .ready => 1

/-- The bit of each line in LINES (S2), for reference: no request reads them as a word. -/
def LineId.bit : LineId → Nat
  | .clk => 0
  | .din => 1
  | .res => 2
  | .dc => 3

/-- The range check of a pixel coordinate (R80). -/
def inDisplay (x y : Nat) : Bool := decide (x ≤ 127 ∧ y ≤ 63)

/-- The response of a pixel write (R80, R81, R96). -/
def pixelResponse (x y : Nat) : Response := if inDisplay x y then .ok else .outOfBounds

end Sys2Proof.Machine
end

