-- ==== Sys2Proof/Machine/Operands.lean ====
section
/-!
DEFINITION. The operand forms: the font height of F (R56), the page-to-byte address mapper (R29) and the pixel observer
(R31), the glyph lookup (R87), and the digits of a number (R90).  Every other operand is its field, zero-extended.
-/

namespace Sys2Proof.Machine

/-- `h = 12` when F = 0 and `h = 16` when F = 1 (R56). -/
def fontHeight : Font → Nat
  | .px12 => 12
  | .px16 => 16

/-! ## The address mapper -/

/-- Where a pixel lies: its column, its page and the mask of its bit (R29). -/
structure PixelPlace where
  column : Column
  page   : Page
  mask   : Byte
deriving DecidableEq, Repr

/-- PixelMap (R29). -/
def pixelMap (x : Column) (y : Row) : PixelPlace where
  column := x
  page   := ⟨7 - y.val / 8, by omega⟩
  mask   := 1 <<< (7 - y.val % 8)

/-- PixelAt, the read-back of a pixel (R31).  An observer: no request reads it. -/
def State.pixelAt (s : State) (x : Column) (y : Row) : Bool :=
  let m := pixelMap x y
  (s.fbByte m.column m.page &&& m.mask) ≠ 0

/-! ## Glyphs -/

/-- `ch - 0x20`, the entry of a character, where R87 requires `ch ∈ [0x20, 0x7E]`. -/
def glyphIndex (ch : Byte) : Option (Fin 95) :=
  if h : 0x20 ≤ ch.toNat ∧ ch.toNat ≤ 0x7E then some ⟨ch.toNat - 0x20, by omega⟩ else none

/-- Byte t of entry i of the table of a font, when t is below the font's height (R21). -/
def romByte (ps : Config.Params) (font : Font) (i : Fin 95) (t : Nat) : Option Byte :=
  match font with
  | .px12 => (ps.glyph12.get i)[t]?
  | .px16 => (ps.glyph16.get i)[t]?

/-- `GlyphByte(h, ch, t)` (R87).  Outside the domain R87 requires, which no decoded request leaves, it is any value
(log entry 10). -/
def glyphByte (ps : Config.Params) (font : Font) (ch : Byte) (t : Nat) : Byte :=
  ((glyphIndex ch).bind fun i => romByte ps font i t).getD (Config.offTableByte ch t)

/-- Bit n of a glyph in the order R88 renders it: bit n = 8t + k is bit k of byte t, k = 0 the most significant. -/
def glyphBit (ps : Config.Params) (font : Font) (ch : Byte) (n : Nat) : Bool :=
  (glyphByte ps font ch (n / 8)).getLsbD (7 - n % 8)

/-! ## Digits -/

/-- `digit(v, n, t) = (v div 10^(n-1-t)) mod 10` (R90). -/
def digit (v n t : Nat) : Nat := v / 10 ^ (n - 1 - t) % 10

/-- The character `'0' + d` of a digit (R91). -/
def digitChar (d : Nat) : Byte := BitVec.ofNat 8 (0x30 + d)

/-- `h div 2`, the pitch of digits (R91): 6 for h = 12, 8 for h = 16. -/
def digitPitch (font : Font) : Nat := fontHeight font / 2

end Sys2Proof.Machine
end

