-- ==== Sys2Proof/Machine/Link.lean ====
section
/-!
DEFINITION. The serial link driver (R65 to R69) and the meaning of SEND (R71).
-/

namespace Sys2Proof.Machine

/-- The mode-select level of a byte: DC_CMD_LEVEL for a command byte, 1 - DC_CMD_LEVEL for a data byte (R66). -/
def modeSelect (isCommand : Bool) : Bool :=
  if isCommand then Config.dcCmdLevel else !Config.dcCmdLevel

/-- `n` rounds of the bit loop of R65 on the shift register `b`: clock low, data = b[7], clock high, shift left. -/
def shiftOut : Nat → Byte → List Event
  | 0, _ => []
  | n + 1, b =>
    .line .clk false :: .line .din (b.getLsbD 7) :: .line .clk true :: shiftOut n (b <<< 1)

/-- The events of `SendByte(v, c)`: mode-select first, then eight bits (R65). -/
def sendByteEvents (v : Byte) (isCommand : Bool) : List Event :=
  .line .dc (modeSelect isCommand) :: shiftOut 8 v

/-- `SendByte(v, c)` (R65). -/
def sendByte (v : Byte) (isCommand : Bool) (s : State) : State := s.emit (sendByteEvents v isCommand)

/-- SEND (R71). -/
def execSend (isCommand : Bool) (value : Byte) (s : State) : StepOutcome :=
  whenReady s fun s => .next ((sendByte value isCommand s).complete .ok 1)

end Sys2Proof.Machine
end

