-- ==== Sys2Proof/Machine/Frame.lean ====
section
/-!
DEFINITION. The framebuffer primitives SetPixelCore, RefreshCore and ZeroFB (R80, R82, R84) and the meanings of SETPIX,
REFRESH and CLEAR (R81, R83, R85).
-/

namespace Sys2Proof.Machine

/-- Set or clear the bit of one pixel in its byte (R80). -/
def State.writePixel (s : State) (x : Column) (y : Row) (on : Bool) : State :=
  let m := pixelMap x y
  let old := s.fbByte m.column m.page
  s.setFbByte m.column m.page (if on then old ||| m.mask else old &&& ~~~m.mask)

/-- `SetPixelCore(x, y, on)` (R80): the state after it; its response is `pixelResponse x y`. -/
def setPixelCore (x y : Nat) (on : Bool) (s : State) : State :=
  if h : x ≤ 127 ∧ y ≤ 63 then s.writePixel ⟨x, by omega⟩ ⟨y, by omega⟩ on else s

/-- SETPIX (R81). -/
def execSetpix (x y : Byte) (on : Bool) (s : State) : StepOutcome :=
  whenReady s fun s =>
    .next ((setPixelCore x.toNat y.toNat on s).complete (pixelResponse x.toNat y.toNat) 1)

/-- The addressing commands RefreshCore sends before the bytes of page p (R82). -/
def pageHeaderEvents (ps : Config.Params) (p : Page) : List Event :=
  sendByteEvents (ps.pageSel.get p) true ++ sendByteEvents ps.colLo true ++ sendByteEvents ps.colHi true

/-- The data bytes of page p, columns ascending (R82). -/
def pageDataEvents (s : State) (p : Page) : List Event :=
  (List.finRange 128).flatMap fun c => sendByteEvents (s.fbByte c p) false

/-- The events of `RefreshCore()`, pages ascending (R82).  Irreducible only so that no elaborator unfolds its 26,200
events. -/
@[irreducible] def refreshEvents (s : State) : List Event :=
  (List.finRange 8).flatMap fun p => pageHeaderEvents s.params p ++ pageDataEvents s p

/-- `RefreshCore()` (R82). -/
def refreshCore (s : State) : State := s.emit (refreshEvents s)

/-- REFRESH (R83). -/
def execRefresh (s : State) : StepOutcome :=
  whenReady s fun s => .next ((refreshCore s).complete .ok 1)

/-- `ZeroFB()` (R84). -/
def zeroFB (s : State) : State := { s with fb := Memory.zero }

/-- CLEAR (R85). -/
def execClear (s : State) : StepOutcome :=
  whenReady s fun s => .next ((refreshCore (zeroFB s)).complete .ok 1)

end Sys2Proof.Machine
end

