-- ==== Sys2Proof/Machine/Drawing.lean ====
section
/-!
DEFINITION. The composite drawing operations (R86 to R94) and the meanings of GLYPH, NUMBER and TEXT.  The response of
every SetPixelCore here is discarded (R94).
-/

namespace Sys2Proof.Machine

/-! ## One glyph -/

/-- `k` rounds of the bit loop of R88 on the byte `tmp`.  `brk` is GLYPH_COLUMN_BREAK. -/
def glyphBits (brk : Bool) (h y0 : Nat) (normal : Bool) : Nat → Byte → Cursor → State → Draw Cursor
  | 0, _, cur, s => .ok cur s
  | k + 1, tmp, cur, s =>
    let bit := tmp.getLsbD 7
    let s := setPixelCore cur.x cur.y (if normal then bit else !bit) s
    (chk (cur.y + 1) s).bind fun y s =>
      if y - y0 = h then
        (chk (cur.x + 1) s).bind fun x s =>
          if brk then .ok ⟨x, y0⟩ s else glyphBits brk h y0 normal k (tmp <<< 1) ⟨x, y0⟩ s
      else glyphBits brk h y0 normal k (tmp <<< 1) ⟨cur.x, y⟩ s

/-- `n` rounds of the byte loop of R88, from glyph byte t on. -/
def glyphBytes (brk : Bool) (font : Font) (ch : Byte) (y0 : Nat) (normal : Bool) :
    Nat → Nat → Cursor → State → Draw Cursor
  | 0, _, cur, s => .ok cur s
  | n + 1, t, cur, s =>
    (glyphBits brk (fontHeight font) y0 normal 8 (glyphByte s.params font ch t) cur s).bind fun cur s =>
      glyphBytes brk font ch y0 normal n (t + 1) cur s

/-- `DrawGlyphCore` with either value of GLYPH_COLUMN_BREAK (R88). -/
def drawGlyphWith (brk : Bool) (x0 y0 : Nat) (ch : Byte) (font : Font) (normal : Bool) (s : State) : Draw Cursor :=
  glyphBytes brk font ch y0 normal (fontHeight font) 0 ⟨x0, y0⟩ s

/-- `DrawGlyphCore(x0, y0, ch, h, normal)`, with this hardware's GLYPH_COLUMN_BREAK (R88; DESIGN CHOICE,
unsafe: log entry 16). -/
def drawGlyphCore (x0 y0 : Nat) (ch : Byte) (font : Font) (normal : Bool) (s : State) : Draw Cursor :=
  drawGlyphWith Config.glyphColumnBreak x0 y0 ch font normal s

/-- GLYPH (R89). -/
def execGlyph (x y ch : Byte) (font : Font) (normal : Bool) (s : State) : StepOutcome :=
  whenReady s fun s => (drawGlyphCore x.toNat y.toNat ch font normal s).finish 1

/-! ## Numbers -/

/-- `k` rounds of the digit loop of R91, from digit t on, for the value `v` in `n` digits. -/
def numberDigits (x0 y0 v n : Nat) (font : Font) : Nat → Nat → State → Draw Unit
  | 0, _, s => .ok () s
  | k + 1, t, s =>
    (chk (x0 + t * digitPitch font) s).bind fun cx s =>
      (drawGlyphCore cx y0 (digitChar (digit v n t)) font true s).bind fun _ s =>
        numberDigits x0 y0 v n font k (t + 1) s

/-- NUMBER (R91). -/
def execNumber (x y : Byte) (digits : BitVec 4) (font : Font) (value : Word) (s : State) : StepOutcome :=
  whenReady s fun s =>
    (numberDigits x.toNat y.toNat value.toNat digits.toNat font digits.toNat 0 s).finish 2

/-! ## Text -/

/-- TEXT_FONT = 12 (R6, R92). -/
def textFont : Font := .px12

/-- The wrap test of R92. -/
def textWrap (cur : Cursor) (s : State) : Draw Cursor :=
  if cur.x > Config.textWrapX then
    (chk (cur.y + Config.textLineStep) s).bind fun y s => .ok ⟨0, y⟩ s
  else .ok cur s

/-- The layout clear of R92: ZeroFB, and RefreshCore when TEXT_CLEAR_PUSH. -/
def layoutClear (s : State) : State :=
  if s.params.textClearPush then refreshCore (zeroFB s) else zeroFB s

/-- The clear test of R92. -/
def textClear (cur : Cursor) (s : State) : Draw Cursor :=
  if cur.y > Config.textClearY then .ok ⟨0, 0⟩ (layoutClear s) else .ok cur s

/-- `TextCore(x, y, s)`, character by character: wrap test, clear test, render, advance (R92). -/
def textCore : List Byte → Cursor → State → Draw Cursor
  | [], cur, s => .ok cur s
  | ch :: rest, cur, s =>
    (textWrap cur s).bind fun cur s =>
      (textClear cur s).bind fun cur s =>
        (drawGlyphCore cur.x cur.y ch textFont true s).bind fun _ s =>
          (chk (cur.x + Config.textAdvance) s).bind fun x s => textCore rest ⟨x, cur.y⟩ s

/-- TEXT (R93). -/
def execText (x y : Byte) (chars : List Byte) (s : State) : StepOutcome :=
  whenReady s fun s => (textCore chars ⟨x.toNat, y.toNat⟩ s).finish (1 + textWords chars)

end Sys2Proof.Machine
end

