-- ==== Sys2Proof/Machine/Init.lean ====
section
/-!
DEFINITION. The reset pulse (R75), the command sequence (R76) and the meaning of INIT (R77).
-/

namespace Sys2Proof.Machine

/-- The events of `ResetPulse()` (R75). -/
def resetPulseEvents : List Event :=
  [.line .res false, .wait Config.resetHoldMin, .line .res true]

/-- `ResetPulse()` (R75). -/
def resetPulse (s : State) : State := s.emit resetPulseEvents

/-- The bytes of INIT_SEQ in order, each entry's arguments right after its opcode (R76). -/
def initBytes (ps : Config.Params) : List Byte :=
  ps.initSeq.toList.flatMap fun e => e.opcode :: e.args

/-- Every byte of INIT_SEQ sent as a command byte (R76, R77). -/
def sendInitSeq (s : State) : State :=
  s.emit ((initBytes s.params).flatMap fun b => sendByteEvents b true)

/-- INIT (R77). -/
def execInit (s : State) : StepOutcome :=
  if s.mode ≠ .uninit then .next (raiseFault .reinit s)
  else
    let shown := refreshCore (zeroFB (sendInitSeq (resetPulse s)))
    .next ({ shown with mode := .ready }.complete .ok 1)

end Sys2Proof.Machine
end

