-- ==== Sys2Proof/Machine/Dispatch.lean ====
section
/-!
DEFINITION. `exec`: the meaning of each request, one arm per constructor of `Instr`.  FAULT and the ranges of R59 are
checked by `step` before it comes here (DESIGN CHOICE, unsafe for claims about `exec` alone: log entry 12).
-/

namespace Sys2Proof.Machine

def exec (i : Instr) (s : State) : Host.Outcome State Fault Refusal :=
  match i with
  | .init => Sys2Proof.Machine.execInit s
  | .send isCommand value => Sys2Proof.Machine.execSend isCommand value s
  | .setpix x y on => Sys2Proof.Machine.execSetpix x y on s
  | .refresh => Sys2Proof.Machine.execRefresh s
  | .clear => Sys2Proof.Machine.execClear s
  | .glyph x y ch font normal => Sys2Proof.Machine.execGlyph x y ch font normal s
  | .number x y digits font value => Sys2Proof.Machine.execNumber x y digits font value s
  | .text x y chars => Sys2Proof.Machine.execText x y chars s

end Sys2Proof.Machine
end

