-- ==== Sys2Proof/Machine/Fetch.lean ====
section
/-!
DEFINITION. Request fetch: what the block finds at RP before it runs anything (R27, R95, R99, R100, R102, R111), and the
placing of an instruction's words at RP for `State.withFetchWord`.
-/

namespace Sys2Proof.Machine

/-- What the block finds at RP. -/
inductive Fetched where
  /-- The block has faulted and decodes no further request (R99). -/
  | halted (code : FaultCode)
  /-- RP is at the end of the stream: there is no request (R95.4, R111). -/
  | endOfStream
  /-- The request is incomplete (R61, R102). -/
  | incomplete
  /-- The request is illegal (R57, R58, R59). -/
  | illegal (why : IllegalReason)
  /-- A request of the given length in words. -/
  | request (i : Instr) (length : Nat)
deriving DecidableEq, Repr

/-- Fetch and decode at RP.  A halt comes first (R99), then the end of the stream (R111), then decode, which settles
completeness before legality (R100).  RP beyond the end, which no run reaches, is stuck (DESIGN CHOICE, safe:
log entry 9). -/
def fetch (s : State) : Fetched :=
  if s.fault ≠ .none then .halted s.fault
  else if s.rp = s.stream.length then .endOfStream
  else
    match decode (s.stream.drop s.rp) with
    | .request i length => .request i length
    | .illegal why => .illegal why
    | .incomplete => .incomplete

/-- The machine with a program loaded from outside: its request stream is `ws` (log entry 8). -/
def State.load (s : State) (ws : List Word) : State := { s with stream := ws }

/-- Words placed at index `at` of a stream; a gap before them is filled with zero words. -/
def placeAt (stream : List Word) (at' : Nat) (ws : List Word) : List Word :=
  stream.take at' ++ List.replicate (at' - stream.length) 0 ++ ws ++ stream.drop (at' + ws.length)

/-- The state whose next step fetches exactly the given words: they stand at RP, and FAULT is NONE, without which the
block fetches nothing (log entries 8 and 15). -/
def State.placeAtRp (s : State) (ws : List Word) : State :=
  { s with fault := .none, stream := placeAt s.stream s.rp ws }

end Sys2Proof.Machine
end

