-- ==== Sys2Proof/Machine/Step.lean ====
section
/-!
DEFINITION. One step of the machine: fetch, and run the request found (R38, R95).
-/

namespace Sys2Proof.Machine

/-- One step.  The four outcomes of R95 are: a request that completes or faults (a next state), a stuck block, and no
request; a halted block has no step (R99).  No other agent acts between steps (DESIGN CHOICE, unsafe: log entry 17). -/
def step (s : State) : Host.Outcome State Fault Refusal :=
  match fetch s with
  | .halted code => .fault (.halted code)
  | .endOfStream => .fault .endOfStream
  | .incomplete => .fault .stuck
  | .illegal _ => .next (raiseFault .illegal s)
  | .request i _ => exec i s

/-- `s` with an instruction, its bits numbered as the opcode table numbers them, where `step` fetches next. -/
def State.withFetchWord (s : State) (nbits w : Nat) : State := s.placeAtRp (tableWords nbits w)

end Sys2Proof.Machine
end

