-- ==== Sys2Proof/Machine/Asm.lean ====
section
/-!
DEFINITION. The assembler syntax (R62) and its pseudo-instructions (R63): text to request words.  The machine never reads
it; it is the notation programs are written in.  What the tables of R62 leave open is log entry 14.
-/

namespace Sys2Proof.Asm

/-- One line of a program: a line of R62's table, or a pseudo-instruction of R63's. -/
inductive Line where
  | init
  | sendC (v : Byte)
  | sendD (v : Byte)
  | setpix (x y : Byte) (on : Bool)
  | refresh
  | clear
  | glyph (x y ch : Byte) (font : Font) (normal : Bool)
  | number (x y : Byte) (value : Word) (digits : BitVec 4) (font : Font)
  | text (x y : Byte) (chars : List Byte)
  | cmd (v : Byte)
  | data (v : Byte)
  | pset (x y : Byte)
  | pclr (x y : Byte)
deriving DecidableEq, Repr

/-- The expansion of the pseudo-instructions (R63); any other line stands for itself. -/
def expand : Line → Line
  | .cmd v => .sendC v
  | .data v => .sendD v
  | .pset x y => .setpix x y true
  | .pclr x y => .setpix x y false
  | .init => .init
  | .sendC v => .sendC v
  | .sendD v => .sendD v
  | .setpix x y on => .setpix x y on
  | .refresh => .refresh
  | .clear => .clear
  | .glyph x y ch font normal => .glyph x y ch font normal
  | .number x y value digits font => .number x y value digits font
  | .text x y chars => .text x y chars

/-- The request a line stands for (R62, R63). -/
def request : Line → Instr
  | .init => .init
  | .sendC v => .send true v
  | .sendD v => .send false v
  | .setpix x y on => .setpix x y on
  | .refresh => .refresh
  | .clear => .clear
  | .glyph x y ch font normal => .glyph x y ch font normal
  | .number x y value digits font => .number x y digits font value
  | .text x y chars => .text x y chars
  | .cmd v => .send true v
  | .data v => .send false v
  | .pset x y => .setpix x y true
  | .pclr x y => .setpix x y false

/-! ## Tokens -/

/-- A token of a line: a mnemonic, number or name; a character literal; a string literal; a comma. -/
inductive Token where
  | name (cs : List Char)
  | char (c : Char)
  | str (cs : List Char)
  | comma
deriving DecidableEq, Repr

/-- A character that separates tokens. -/
def isBlank (c : Char) : Bool := c = ' ' || c = '\t' || c = '\r'

/-- A character of a mnemonic, a number or a name. -/
def isNameChar (c : Char) : Bool := c.isAlphanum || c = '.'

/-- Where the lexer stands: between tokens, or inside a name or a string with what it has read, last first. -/
inductive LexMode where
  | between
  | inName (read : List Char)
  | inString (read : List Char)

/-- The tokens of a line up to its end or its comment (R62).  A `;`, a comma or a blank inside a character or a string
literal is a character of the literal, and such a `;` starts no comment; R62 does not say so (DESIGN CHOICE, unsafe for
a claim about such a text: log entry 14, with what else of the tokens R62 leaves open). -/
def lex : LexMode → List Char → Option (List Token)
  | .between, [] => some []
  | .between, '\'' :: c :: '\'' :: rest => (lex .between rest).map (.char c :: ·)
  | .between, c :: rest =>
    if c = ';' then some []
    else if isBlank c then lex .between rest
    else if c = ',' then (lex .between rest).map (.comma :: ·)
    else if c = '"' then lex (.inString []) rest
    else if isNameChar c then lex (.inName [c]) rest
    else none
  | .inName read, [] => some [.name read.reverse]
  | .inName read, c :: rest =>
    if isNameChar c then lex (.inName (c :: read)) rest
    else if c = ';' then some [.name read.reverse]
    else if isBlank c then (lex .between rest).map (.name read.reverse :: ·)
    else if c = ',' then (lex .between rest).map fun ts => .name read.reverse :: .comma :: ts
    else none
  | .inString _, [] => none
  | .inString read, c :: rest =>
    if c = '"' then (lex .between rest).map (.str read.reverse :: ·)
    else lex (.inString (c :: read)) rest

/-! ## Operands -/

/-- The value of a digit in the given base. -/
def digitValue (base : Nat) (c : Char) : Option Nat :=
  let n := c.toNat
  let v := if 0x30 ≤ n ∧ n ≤ 0x39 then some (n - 0x30)
    else if 0x41 ≤ n ∧ n ≤ 0x46 then some (n - 0x41 + 10)
    else if 0x61 ≤ n ∧ n ≤ 0x66 then some (n - 0x61 + 10)
    else none
  v.bind fun d => if d < base then some d else none

/-- Digits read as a number, most significant first, after the value read so far. -/
def digitsFrom (base : Nat) : Nat → List Char → Option Nat
  | n, [] => some n
  | n, c :: rest => (digitValue base c).bind fun d => digitsFrom base (base * n + d) rest

/-- A decimal number, or a hexadecimal one with `0x` (R62); how its digits may be written is log entry 14 (DESIGN CHOICE,
unsafe for a claim about such a text). -/
def parseNumber : List Char → Option Nat
  | [] => none
  | '0' :: 'x' :: [] => none
  | '0' :: 'x' :: ds => digitsFrom 16 0 ds
  | ds => digitsFrom 10 0 ds

/-- A numeric operand: a number, or the code of a character literal (R62).  R62 gives a literal its ASCII code; for a
character that has none the model takes its Unicode code point, which must fit the operand's field (DESIGN CHOICE, unsafe
for a claim about such a text: log entry 14). -/
def numberOf : Token → Option Nat
  | .name cs => parseNumber cs
  | .char c => some c.toNat
  | .str _ => none
  | .comma => none

/-- A numeric operand that fits a field of `len` bits. -/
def fieldOf (len : Nat) (t : Token) : Option (BitVec len) :=
  (numberOf t).bind fun n => if n < 2 ^ len then some (BitVec.ofNat len n) else none

/-- `on ∈ {0, 1}` (R62). -/
def bitOf (t : Token) : Option Bool :=
  (numberOf t).bind fun n => if n = 0 then some false else if n = 1 then some true else none

/-- `h ∈ {12, 16}` gives F (R62). -/
def fontOf (t : Token) : Option Font :=
  (numberOf t).bind fun n => if n = 12 then some .px12 else if n = 16 then some .px16 else none

/-- `pol ∈ {N, I}` gives P = 1 or P = 0 (R62). -/
def polarityOf : Token → Option Bool
  | .name ['N'] => some true
  | .name ['I'] => some false
  | _ => none

/-- The bytes of a string literal (R62): the code of each character as it is written, the bytes of control characters and of
codes 0x7F to 0xFF included, so that a NUL ends the TEXT early for decode; a code above 0xFF is not assembled.  R62 speaks of
none of these (DESIGN CHOICE, unsafe for a claim about such a text: log entry 14). -/
def bytesOf : Token → Option (List Byte)
  | .str cs => cs.mapM fun c => if c.toNat < 256 then some (BitVec.ofNat 8 c.toNat) else none
  | _ => none

/-! ## Lines and programs -/

/-- The tokens of a line parsed (R62, R63): `some none` is a line with no request on it. -/
def parse : List Token → Option (Option Line)
  | [] => some none
  | [.name ['I', 'N', 'I', 'T']] => some (some .init)
  | [.name ['R', 'E', 'F', 'R', 'E', 'S', 'H']] => some (some .refresh)
  | [.name ['C', 'L', 'E', 'A', 'R']] => some (some .clear)
  | [.name ['S', 'E', 'N', 'D', '.', 'C'], v] => return some (.sendC (← fieldOf 8 v))
  | [.name ['S', 'E', 'N', 'D', '.', 'D'], v] => return some (.sendD (← fieldOf 8 v))
  | [.name ['C', 'M', 'D'], v] => return some (.cmd (← fieldOf 8 v))
  | [.name ['D', 'A', 'T', 'A'], v] => return some (.data (← fieldOf 8 v))
  | [.name ['P', 'S', 'E', 'T'], x, .comma, y] => return some (.pset (← fieldOf 8 x) (← fieldOf 8 y))
  | [.name ['P', 'C', 'L', 'R'], x, .comma, y] => return some (.pclr (← fieldOf 8 x) (← fieldOf 8 y))
  | [.name ['S', 'E', 'T', 'P', 'I', 'X'], x, .comma, y, .comma, on] =>
    return some (.setpix (← fieldOf 8 x) (← fieldOf 8 y) (← bitOf on))
  | [.name ['T', 'E', 'X', 'T'], x, .comma, y, .comma, str] =>
    return some (.text (← fieldOf 8 x) (← fieldOf 8 y) (← bytesOf str))
  | [.name ['G', 'L', 'Y', 'P', 'H'], x, .comma, y, .comma, ch, .comma, h, .comma, pol] =>
    return some (.glyph (← fieldOf 8 x) (← fieldOf 8 y) (← fieldOf 8 ch) (← fontOf h) (← polarityOf pol))
  | [.name ['N', 'U', 'M', 'B', 'E', 'R'], x, .comma, y, .comma, value, .comma, n, .comma, h] =>
    return some (.number (← fieldOf 8 x) (← fieldOf 8 y) (← fieldOf 32 value) (← fieldOf 4 n) (← fontOf h))
  | _ => none

/-- One line of text parsed. -/
def parseLine (cs : List Char) : Option (Option Line) := (lex .between cs).bind parse

/-- The lines of a text: one request per line (R62). -/
def splitLines : List Char → List (List Char)
  | [] => [[]]
  | c :: rest =>
    if c = '\n' then [] :: splitLines rest
    else
      match splitLines rest with
      | [] => [[c]]
      | l :: ls => (c :: l) :: ls

/-- The request words of a line: none for a line with no request. -/
def lineWords : Option Line → List Word
  | none => []
  | some l => encode (request l)

/-- A program's text assembled to its request stream; `none` when a line has no meaning. -/
def assemble (text : List Char) : Option (List Word) :=
  ((splitLines text).mapM parseLine).map fun ls => ls.flatMap lineWords

end Sys2Proof.Asm
end

