-- ==== Sys2Proof/Machine/Observe.lean ====
section
/-!
DEFINITION. The observers of the link: the framing of TRACE into bytes (R70), the count of rising clock edges (R74), the
lines as TRACE leaves them (R16), and the lower bound on the time an event takes (R112).  No request reads any of them.
-/

namespace Sys2Proof.Machine

/-- The kind of a byte on the link (R70). -/
inductive ByteKind where
  | cmd
  | data
deriving DecidableEq, Repr

/-- The variables of the observer `Decoded` (R70). -/
structure Framer where
  out  : List (ByteKind × Byte)
  bits : List Bool
  clk  : Level
  din  : Level
  dc   : Level
deriving DecidableEq, Repr

/-- `out <- []; bits <- []; clk <- X; din <- X; dc <- X` (R70). -/
def Framer.start : Framer := ⟨[], [], .x, .x, .x⟩

/-- The level the observer samples; a line that was never driven gives any level (log entry 11). -/
def Level.sample : Level → Bool
  | .low => false
  | .high => true
  | .x => Config.undrivenSample

/-- `bits[0]*128 + ... + bits[7]*1` (R70), most significant bit first. -/
def byteOfBits (bits : List Bool) : Byte :=
  BitVec.ofNat 8 (bits.foldl (fun n b => 2 * n + b.toNat) 0)

/-- The kind of a byte: CMD when DC is at DC_CMD_LEVEL, else DATA (R70). -/
def kindOf (dc : Level) : ByteKind := if dc = Level.ofBit Config.dcCmdLevel then .cmd else .data

/-- A rising edge samples DIN; the eighth sample completes a byte (R70). -/
def Framer.rise (f : Framer) : Framer :=
  let bits := f.bits ++ [f.din.sample]
  if bits.length = 8 then { f with out := f.out ++ [(kindOf f.dc, byteOfBits bits)], bits := [] }
  else { f with bits := bits }

/-- One event of the observer's loop (R70). -/
def Framer.event (f : Framer) : Event → Framer
  | .line .din l => { f with din := Level.ofBit l }
  | .line .dc l => { f with dc := Level.ofBit l }
  | .line .res _ => f
  | .wait _ => f
  | .line .clk l =>
    let sampled := if f.clk = .low ∧ l = true then f.rise else f
    { sampled with clk := Level.ofBit l }

/-- The observer after a trace. -/
def frameTrace (t : List Event) : Framer := t.foldl Framer.event Framer.start

/-- `Decoded(TRACE)` (R70). -/
def decoded (t : List Event) : List (ByteKind × Byte) := (frameTrace t).out

/-- The level of CLK after a trace that begins at the level `clk`, and its rising edges: events that drive CLK to 1 when
it is 0 (R68, R74). -/
def risingEdgesFrom : Level → List Event → Nat
  | _, [] => 0
  | clk, .line .clk l :: t => (if clk = .low ∧ l = true then 1 else 0) + risingEdgesFrom (Level.ofBit l) t
  | clk, _ :: t => risingEdgesFrom clk t

/-- The number of rising CLK edges in a trace (R74). -/
def risingEdges (t : List Event) : Nat := risingEdgesFrom .x t

/-- LINES at power-up: every line X (R24). -/
def undrivenLines : Lines := ⟨.x, .x, .x, .x⟩

/-- The level of one line (R16). -/
def Lines.level (ls : Lines) : LineId → Level
  | .clk => ls.clk
  | .din => ls.din
  | .res => ls.res
  | .dc => ls.dc

/-- The lower bound on the time before the next event, in the unit the parameter TIME_UNIT counts (R17, R112): only a
wait has one, and the model has no other time (DESIGN CHOICE, safe: log entry 18). -/
def Event.minDuration (ps : Config.Params) : Event → Nat
  | .line _ _ => 0
  | .wait n => n * ps.timeUnit

/-- The (kind, byte) pairs of one RefreshCore: for each page three command bytes and 128 data bytes (R82, R85). -/
def refreshBytes (s : State) : List (ByteKind × Byte) :=
  (List.finRange 8).flatMap fun p =>
    [(.cmd, s.params.pageSel.get p), (.cmd, s.params.colLo), (.cmd, s.params.colHi)] ++
      (List.finRange 128).map fun c => (.data, s.fbByte c p)

end Sys2Proof.Machine
end

