-- ==== Sys2Proof/Safety.lean ====
section
/-!
DEFINITION. How a run can end (R111), and the invariant of the machine at request boundaries.
-/

namespace Sys2Proof.Machine

/-- A finished run: `FAULT = NONE` and `RP = L` (R111). -/
def State.Finished (s : State) : Prop := s.fault = .none ∧ s.rp = s.stream.length

/-- What a finished run yields (R111): `(MODE, FB, LINES, TRACE, RESP)` and `Decoded(TRACE)`.  `PixelAt` is
`State.pixelAt`. -/
structure Yield where
  mode    : Mode
  fb      : List Host.Cell
  lines   : Lines
  trace   : List Event
  resp    : List Response
  decoded : List (ByteKind × Byte)
deriving DecidableEq, Repr

/-- The yield of a state (R111). -/
def State.yield (s : State) : Yield := ⟨s.mode, s.fb, s.lines, s.trace, s.resp, decoded s.trace⟩

/-- A faulted run: `FAULT ≠ NONE` (R111). -/
def State.Faulted (s : State) : Prop := s.fault ≠ .none

/-- A stuck run: not faulted, and the request at RP is incomplete (R102). -/
def State.Stuck (s : State) : Prop := fetch s = .incomplete

/-- Every byte of the framebuffer has been written: none is X (R15). -/
def State.FbWritten (s : State) : Prop := ∀ (c : Column) (p : Page), s.fbCell c p ≠ none

/-- No byte of the framebuffer has been written: all are X (R24). -/
def State.FbUnwritten (s : State) : Prop := ∀ (c : Column) (p : Page), s.fbCell c p = none

/-- What holds of every state between requests. -/
structure State.Inv (s : State) : Prop where
  /-- The framebuffer's cells are in canonical form. -/
  fbWf : Memory.wf s.fb = true
  /-- RP never passes the end of the stream (R14, R27). -/
  rpInStream : s.rp ≤ s.stream.length
  /-- LINES holds, for each line, the level TRACE last drove on it (R16). -/
  linesHold : s.lines = s.trace.foldl Lines.after undrivenLines
  /-- No partial byte stands between requests (R74). -/
  framed : 8 ∣ risingEdges s.trace
  /-- Before INIT nothing has happened: the power-up values stand (R24, R98). -/
  untouched : s.mode = .uninit → s.FbUnwritten ∧ s.rp = 0 ∧ s.trace = [] ∧ s.resp = []
  /-- After INIT every byte of the framebuffer is written (R15), and RES and CLK are high and DIN and DC driven
  (R78, R72). -/
  initialised : s.mode = .ready →
    s.FbWritten ∧ s.lines.res = .high ∧ s.lines.clk = .high ∧ s.lines.din ≠ .x ∧ s.lines.dc ≠ .x

end Sys2Proof.Machine
end

