-- ==== Sys2Proof/Certificates/Slice0/Obligations.lean ====
section
/-!
DEFINITION. The statements about the model.  `Sys2Proof.Claims` holds the words they are written in: what the rules of
the spec say, spelled out without the machine's own operations wherever the machine has one.
-/

open Sys2Proof Sys2Proof.Machine

namespace Sys2Proof.Claims

/-- FAULT is NONE and at RP stands the request `i`, of length `n` words. -/
def Fetches (s : State) (i : Instr) (n : Nat) : Prop :=
  s.fault = .none ∧ decode (s.stream.drop s.rp) = .request i n

/-- The request at RP completes: the machine answers a next state, and FAULT is still NONE (R95.1). -/
def Completes (s t : State) : Prop := step s = .next t ∧ t.fault = .none

/-- The 25 events of a byte: the mode-select level, 1 for a command, and then bit 7 down to bit 0, each with the clock
low before it and high after it (R65, R66, R67). -/
def byteEvents (v : Byte) (isCommand : Bool) : List Event :=
  .line .dc isCommand ::
    (List.range 8).flatMap fun i => [.line .clk false, .line .din (v.getLsbD (7 - i)), .line .clk true]

/-- The events of one refresh that sends `byteAt c p` for column c of page p (R82). -/
def frameEvents (ps : Config.Params) (byteAt : Column → Page → Byte) : List Event :=
  (List.finRange 8).flatMap fun p =>
    byteEvents (ps.pageSel.get p) true ++ byteEvents ps.colLo true ++ byteEvents ps.colHi true ++
      (List.finRange 128).flatMap fun c => byteEvents (byteAt c p) false

/-- The pairs one refresh adds to the decoded stream (R82). -/
def framePairs (ps : Config.Params) (byteAt : Column → Page → Byte) : List (ByteKind × Byte) :=
  (List.finRange 8).flatMap fun p =>
    [(ByteKind.cmd, ps.pageSel.get p), (.cmd, ps.colLo), (.cmd, ps.colHi)] ++
      (List.finRange 128).map fun c => (.data, byteAt c p)

/-- The bytes of INIT_SEQ: each entry's opcode, then its arguments (R76). -/
def initSeqBytes (ps : Config.Params) : List Byte := ps.initSeq.toList.flatMap fun e => [e.opcode] ++ e.args

/-- The level last driven on a line in a list of events, if any (R16). -/
def lastDrive (id : LineId) : List Event → Option Bool
  | [] => none
  | .line j l :: es => (lastDrive id es).or (if j = id then some l else none)
  | .wait _ :: es => lastDrive id es

/-- The words of a TEXT or NUMBER that the end of the stream cuts off (R61): NUMBER with no second word, or TEXT none of
whose string words holds a 0x00 byte. -/
def Incomplete (ws : List Word) : Prop :=
  ∃ w rest, ws = w :: rest ∧
    ((w.extractLsb' 28 4 = 0x7#4 ∧ rest = []) ∨
      (w.extractLsb' 28 4 = 0x8#4 ∧ ∀ v ∈ rest, ∀ b ∈ wordBytes v, b ≠ 0))

/-- The reserved-zero bits of a first word, by OP: the bits each format table writes 0 (R47, R48, R49, R52, R53, R54). -/
def reservedMask (op : BitVec 4) : Word :=
  match op.toNat with
  | 0x1 => 0x0FFFFFFF
  | 0x2 => 0x0FFFFE00
  | 0x3 => 0x0FFE0000
  | 0x4 => 0x0FFFFFFF
  | 0x5 => 0x0FFFFFFF
  | 0x6 => 0x0C000000
  | 0x7 => 0x0EF00000
  | 0x8 => 0x0FFF0000
  | _ => 0

/-- The result of a decode is an illegal request. -/
def IsIllegal (r : DecodeResult) : Prop := ∃ why, r = .illegal why

/-- One character of a text laid out (R92): where its glyph goes, and whether the layout clears first. -/
structure TextMove where
  x      : Nat
  y      : Nat
  ch     : Byte
  clears : Bool

/-- The layout of a text from the cursor (x, y): wrap test, clear test, render, advance (R92). -/
def textPlan : List Byte → Nat → Nat → List TextMove
  | [], _, _ => []
  | ch :: rest, x, y =>
    let x1 := if x > 122 then 0 else x
    let y1 := if x > 122 then y + 16 else y
    if y1 > 58 then ⟨0, 0, ch, true⟩ :: textPlan rest 8 0
    else ⟨x1, y1, ch, false⟩ :: textPlan rest (x1 + 8) y1

/-- How many times a text's layout clears the framebuffer (R92). -/
def layoutClears (chars : List Byte) (x y : Nat) : Nat := (textPlan chars x y).countP (·.clears)

/-- The one way a TEXT overflows (R93): its first character wraps with y + 16 > 255. -/
def TextOverflows (chars : List Byte) (x y : Nat) : Prop := chars ≠ [] ∧ x > 122 ∧ y + 16 > 255

/-- One laid-out character drawn: the layout clear if there is one, then the 12-pixel glyph in normal polarity (R92). -/
def drawMove (s : State) (m : TextMove) : State :=
  (drawGlyphCore m.x m.y m.ch .px12 true (if m.clears then layoutClear s else s)).state

/-- What a completed request adds to the decoded stream (R71, R77, R82, R85, R92). -/
def sent (s : State) : Instr → List (ByteKind × Byte)
  | .init => (initSeqBytes s.params).map (fun b => (.cmd, b)) ++ framePairs s.params fun _ _ => 0
  | .send isCommand v => [(if isCommand then .cmd else .data, v)]
  | .setpix _ _ _ => []
  | .refresh => framePairs s.params s.fbByte
  | .clear => framePairs s.params fun _ _ => 0
  | .glyph _ _ _ _ _ => []
  | .number _ _ _ _ _ => []
  | .text x y chars =>
    if s.params.textClearPush then
      (List.replicate (layoutClears chars x.toNat y.toNat) (framePairs s.params fun _ _ => 0)).flatten
    else []

/-- The decoded bytes a completed request adds, in number (R118). -/
def decodedCount (s : State) : Instr → Nat
  | .init => (initSeqBytes s.params).length + 1048
  | .send _ _ => 1
  | .setpix _ _ _ => 0
  | .refresh => 1048
  | .clear => 1048
  | .glyph _ _ _ _ _ => 0
  | .number _ _ _ _ _ => 0
  | .text x y chars => if s.params.textClearPush then 1048 * layoutClears chars x.toNat y.toNat else 0

/-- The TRACE events a completed request appends, in number (R118). -/
def eventCount (s : State) : Instr → Nat
  | .init => 3 + 25 * (initSeqBytes s.params).length + 26200
  | .send _ _ => 25
  | .setpix _ _ _ => 0
  | .refresh => 26200
  | .clear => 26200
  | .glyph _ _ _ _ _ => 0
  | .number _ _ _ _ _ => 0
  | .text x y chars => if s.params.textClearPush then 26200 * layoutClears chars x.toNat y.toNat else 0

/-- A composite request (R94). -/
def Composite : Instr → Prop
  | .glyph _ _ _ _ _ => True
  | .number _ _ _ _ _ => True
  | .text _ _ _ => True
  | .init => False
  | .send _ _ => False
  | .setpix _ _ _ => False
  | .refresh => False
  | .clear => False

/-- The height of a font's glyphs (R56). -/
def height : Font → Nat
  | .px12 => 12
  | .px16 => 16

/-- The pixels of the cell of a glyph at (x, y): 8 columns by h rows (R88). -/
abbrev InCell (x y : Nat) (font : Font) (X : Column) (Y : Row) : Prop :=
  x ≤ X.val ∧ X.val < x + 8 ∧ y ≤ Y.val ∧ Y.val < y + height font

/-- The pixel (i, j) of the cell of a character's glyph: bit n = i * h + j in the order of R88, which is bit k = n mod 8
from the most significant of byte t = n div 8 (R21, R87, R88). -/
def cellPixel (ps : Config.Params) (font : Font) (ch : Byte) (i j : Nat) : Bool :=
  let n := i * height font + j
  (glyphByte ps font ch (n / 8)).getLsbD (7 - n % 8)

end Sys2Proof.Claims

open Sys2Proof.Claims

/-! ## Power-up, decode and encode -/

/-- The power-up table (R24), and the entry point: the request decoded first is the one at word 0 of the stream. -/
def Obligations.PowerUpState : Prop :=
  State.reset.mode = .uninit ∧ State.reset.fault = .none ∧ State.reset.rp = 0 ∧
    (∀ c p, State.reset.fbCell c p = none) ∧ (∀ id, State.reset.lines.level id = .x) ∧
    State.reset.trace = [] ∧ State.reset.resp = [] ∧
    ∀ ws i n, decode ws = .request i n → fetch (State.reset.load ws) = .request i n

/-- Words written out from the encodings of R47 to R55 decode to the requests they stand for; one of each row. -/
def Obligations.DecodesWrittenWords : Prop :=
  decode [0b00010000000000000000000000000000#32] = .request .init 1 ∧
    decode [0b00100000000000000000000110100101#32] = .request (.send true 0xA5) 1 ∧
    decode [0b00110000000000010000100100000101#32] = .request (.setpix 5 9 true) 1 ∧
    decode [0b01000000000000000000000000000000#32] = .request .refresh 1 ∧
    decode [0b01010000000000000000000000000000#32] = .request .clear 1 ∧
    decode [0b01100001001000010000010001111100#32] = .request (.glyph 124 4 0x21 .px16 false) 1 ∧
    decode [0b01110000000000100001010000001010#32, 42#32] = .request (.number 10 20 2 .px12 42) 2 ∧
    decode [0b10000000000000000010000001111000#32, 0b00000000010000110100001001000001#32] =
      .request (.text 120 32 [0x41, 0x42, 0x43]) 2

/-- Every well-formed request, with every operand its encoding admits, decodes from its own words, whatever words follow
them in the stream. -/
def Obligations.DecodeOfEncode : Prop :=
  ∀ (i : Instr) (rest : List Word), i.wellFormed = true → decode (encode i ++ rest) = .request i i.words

/-- The only words that decode to a request are its own encoding, and only well-formed requests are decoded. -/
def Obligations.EncodeOfDecode : Prop :=
  ∀ (ws : List Word) (i : Instr) (n : Nat), decode ws = .request i n →
    i.wellFormed = true ∧ n = i.words ∧ ws.take n = encode i

/-- R57: a first word whose OP is 0x0 or 0x9 to 0xF is ILLEGAL: decode raises Fault(ILLEGAL). -/
def Obligations.ReservedOpcodesAreIllegal : Prop :=
  ∀ (s : State) (w : Word) (rest : List Word), s.fault = .none → s.stream.drop s.rp = w :: rest →
    w.extractLsb' 28 4 ∈ [0x0#4, 0x9#4, 0xA#4, 0xB#4, 0xC#4, 0xD#4, 0xE#4, 0xF#4] →
    IsIllegal (decode (w :: rest)) ∧ step s = .next { s with fault := .illegal }

/-- R58: a complete request with a nonzero reserved-zero bit in its first word is ILLEGAL, and so is a TEXT with a
nonzero byte behind its terminator. -/
def Obligations.ReservedBitsAreIllegal : Prop :=
  ∀ (w : Word) (rest : List Word), ¬Incomplete (w :: rest) →
    (w &&& reservedMask (w.extractLsb' 28 4) ≠ 0 → IsIllegal (decode (w :: rest))) ∧
      (w.extractLsb' 28 4 = 0x8#4 → ∀ (pre : List Word) (last : Word) (post : List Word),
        rest = pre ++ [last] ++ post → (∀ v ∈ pre, ∀ b ∈ wordBytes v, b ≠ 0) →
        (∃ j k : Nat, j < k ∧ (wordBytes last)[j]? = some 0 ∧ ∃ b, (wordBytes last)[k]? = some b ∧ b ≠ 0) →
        IsIllegal (decode (w :: rest)))

/-- R59: a complete request is ILLEGAL when it is a GLYPH with CH outside [0x20, 0x7E], a NUMBER with N > 10, or a TEXT
with a character byte, one before its terminator, outside [0x20, 0x7E]. -/
def Obligations.OperandRangesAreIllegal : Prop :=
  (∀ (w : Word) (rest : List Word), w.extractLsb' 28 4 = 0x6#4 →
      (w.extractLsb' 16 8).toNat < 0x20 ∨ 0x7E < (w.extractLsb' 16 8).toNat → IsIllegal (decode (w :: rest))) ∧
    (∀ (w w1 : Word) (rest : List Word), w.extractLsb' 28 4 = 0x7#4 → 10 < (w.extractLsb' 16 4).toNat →
      IsIllegal (decode (w :: w1 :: rest))) ∧
    ∀ (w : Word) (pre : List Word) (last : Word) (post : List Word), w.extractLsb' 28 4 = 0x8#4 →
      (∀ v ∈ pre, ∀ b ∈ wordBytes v, b ≠ 0) → (0 : Byte) ∈ wordBytes last →
      (∃ ch ∈ ((pre ++ [last]).flatMap wordBytes).takeWhile (· ≠ 0), ch.toNat < 0x20 ∨ 0x7E < ch.toNat) →
      IsIllegal (decode (w :: (pre ++ [last] ++ post)))

/-- R46: a request is one word for OP 0x1 to 0x6, two for OP 0x7, and for OP 0x8 one word and the string words up to and
including the first that holds a 0x00 byte; a completed request advances RP by its length. -/
def Obligations.RequestLengths : Prop :=
  (∀ (w : Word) (rest : List Word) (i : Instr) (n : Nat), decode (w :: rest) = .request i n →
      n ≤ rest.length + 1 ∧
        ((w.extractLsb' 28 4).toNat ∈ [1, 2, 3, 4, 5, 6] → n = 1) ∧
        ((w.extractLsb' 28 4).toNat = 7 → n = 2) ∧
        ((w.extractLsb' 28 4).toNat = 8 → ∃ (pre : List Word) (last : Word) (post : List Word),
          rest = pre ++ [last] ++ post ∧ (∀ v ∈ pre, ∀ b ∈ wordBytes v, b ≠ 0) ∧ (0 : Byte) ∈ wordBytes last ∧
            n = 1 + (pre.length + 1))) ∧
    ∀ (s t : State) (i : Instr) (n : Nat), Fetches s i n → Completes s t → t.rp = s.rp + n

/-- R27: decode reads the words of the request, which all stand in the stream, and no other word; and running a request
reads no word of the stream. -/
def Obligations.DecodeReadsOnlyItsWords : Prop :=
  (∀ (ws : List Word) (i : Instr) (n : Nat), decode ws = .request i n →
      n ≤ ws.length ∧ ∀ more : List Word, decode (ws.take n ++ more) = .request i n) ∧
    ∀ (s t : State) (i : Instr) (ws : List Word), exec i s = .next t →
      exec i { s with stream := ws } = .next { t with stream := ws }

/-- R61, R102: at an incomplete request the block is stuck: no step, and not finished.  Nothing else is stuck while RP is
inside the stream. -/
def Obligations.IncompleteRequestsAreStuck : Prop :=
  ∀ s : State, s.rp ≤ s.stream.length →
    (s.fault = .none ∧ Incomplete (s.stream.drop s.rp) → step s = .fault .stuck ∧ ¬s.Finished) ∧
      (step s = .fault .stuck → s.fault = .none ∧ Incomplete (s.stream.drop s.rp))

/-! ## The step and its outcomes -/

/-- When the words at RP decode to a request, a step is the meaning of that request at that state. -/
def Obligations.StepRunsDecodedRequest : Prop :=
  ∀ (s : State) (i : Instr) (n : Nat), Fetches s i n → step s = exec i s

/-- The placing of an instruction's words for the next step: that step runs exactly the instruction the words decode to. -/
def Obligations.PlacedWordRunsNext : Prop :=
  ∀ (s : State) (nbits w : Nat) (i : Instr), decodeTableWord nbits w = some i →
    step (s.withFetchWord nbits w) = exec i (s.withFetchWord nbits w)

/-- R95: while FAULT is NONE a step is one of four: a completion with one response code, a fault, stuck at an incomplete
request, or no request because RP is at the end of the stream. -/
def Obligations.RequestOutcomes : Prop :=
  ∀ s : State, s.fault = .none → s.rp ≤ s.stream.length →
    (∃ t r, Completes s t ∧ t.resp = s.resp ++ [r]) ∨
      (∃ code, code ≠ .none ∧ step s = .next { s with fault := code }) ∨
      (step s = .fault .stuck ∧ Incomplete (s.stream.drop s.rp)) ∨
      (step s = .fault .endOfStream ∧ s.rp = s.stream.length)

/-- R99: a fault sets FAULT and changes nothing else, COORD_OVERFLOW in the middle of a request too; the block then has
no further step, and a faulted state is never a finished run. -/
def Obligations.FaultEntryIsPrecise : Prop :=
  ∀ s t : State, step s = .next t → t.fault ≠ .none →
    t = { s with fault := t.fault } ∧ step t = .fault (.halted t.fault) ∧ ¬t.Finished

/-- R100: stuck first, then ILLEGAL, then NOT_READY or REINIT by MODE, then COORD_OVERFLOW while the request runs. -/
def Obligations.FaultPriority : Prop :=
  ∀ s : State, s.fault = .none → s.rp < s.stream.length →
    (Incomplete (s.stream.drop s.rp) → step s = .fault .stuck) ∧
      (IsIllegal (decode (s.stream.drop s.rp)) → step s = .next { s with fault := .illegal }) ∧
      ∀ i n, decode (s.stream.drop s.rp) = .request i n →
        (i ≠ .init → s.mode = .uninit → step s = .next { s with fault := .notReady }) ∧
          (i = .init → s.mode = .ready → step s = .next { s with fault := .reinit }) ∧
          ∀ t, (i = .init ↔ s.mode = .uninit) → step s = .next t →
            t.fault = .none ∨ (t.fault = .coordOverflow ∧ Composite i)

/-- R109: after power-up the request at word 0 is the first to run, with no boot sequence before it; it must be INIT, and
any other faults NOT_READY. -/
def Obligations.FirstRequestMustBeInit : Prop :=
  ∀ (ws : List Word) (i : Instr) (n : Nat), decode ws = .request i n →
    step (State.reset.load ws) = exec i (State.reset.load ws) ∧
      (i ≠ .init → step (State.reset.load ws) = .next { State.reset.load ws with fault := .notReady }) ∧
      (i = .init → ∃ t, Completes (State.reset.load ws) t ∧ t.mode = .ready)

/-- There is no next request exactly in a finished run: FAULT = NONE and RP = L (R111). -/
def Obligations.FinishedRunHasNoRequest : Prop :=
  ∀ s : State, step s = .fault .endOfStream ↔ (s.fault = .none ∧ s.rp = s.stream.length)

/-- No request is refused. -/
def Obligations.NothingIsRefused : Prop :=
  ∀ (s : State) (r : Refusal), step s ≠ .refused r

/-! ## The state under every step -/

/-- R12: MODE is UNINIT at power-up, INIT sets it to READY, and nothing sets it back or changes it otherwise. -/
def Obligations.ModeIsSetOnceByInit : Prop :=
  State.reset.mode = .uninit ∧
    (∀ s : State, s.mode = .uninit → ∃ t, exec .init s = .next t ∧ t.mode = .ready) ∧
    ∀ s t : State, step s = .next t →
      t.mode = s.mode ∨ (s.mode = .uninit ∧ t.mode = .ready ∧ ∃ n, Fetches s .init n)

/-- R13: FAULT is NONE at power-up, it is written only by raising a fault, and once it is not NONE it is never written
again. -/
def Obligations.FaultIsWrittenOnce : Prop :=
  State.reset.fault = .none ∧
    (∀ s t : State, step s = .next t → t.fault ≠ s.fault → t = raiseFault t.fault s) ∧
    ∀ s : State, s.fault ≠ .none → ∀ t, step s ≠ .next t

/-- R14: RP is 0 at power-up, a completed request advances it by its length, and no request sets it to any other
value. -/
def Obligations.RequestPointerAdvancesByLength : Prop :=
  State.reset.rp = 0 ∧
    ∀ s t : State, step s = .next t →
      (t.fault = .none → ∃ i, Fetches s i i.words ∧ t.rp = s.rp + i.words) ∧ (t.fault ≠ .none → t.rp = s.rp)

/-- R16: every line is X at power-up, and a line holds the level last driven on it, which only an event of TRACE drives,
until the next drive of that same line. -/
def Obligations.LinesHoldLastDrive : Prop :=
  (∀ id, State.reset.lines.level id = .x) ∧
    ∀ s t : State, step s = .next t →
      ∃ es, t.trace = s.trace ++ es ∧
        ∀ id, t.lines.level id =
          match lastDrive id es with
          | some l => if l then .high else .low
          | none => s.lines.level id

/-- R18: RESP is empty at power-up, a completed request appends exactly one code, only SETPIX appends OUT_OF_BOUNDS, and a
request that faults appends nothing; OK is 0 and OUT_OF_BOUNDS is 1. -/
def Obligations.ResponsesAreAppended : Prop :=
  State.reset.resp = [] ∧ Response.ok.code = 0 ∧ Response.outOfBounds.code = 1 ∧
    ∀ s t : State, step s = .next t →
      (t.fault = .none → ∃ r, t.resp = s.resp ++ [r] ∧
          (r = .outOfBounds → ∃ x y on n, Fetches s (.setpix x y on) n)) ∧
        (t.fault ≠ .none → t.resp = s.resp)

/-- R43: no request changes the request stream, nor a parameter or the glyph ROM (R25). -/
def Obligations.InputsNeverChange : Prop :=
  ∀ s t : State, step s = .next t → t.stream = s.stream ∧ t.params = s.params

/-- R73: SendByte never drives RES, and LINES.RES changes only in INIT's reset pulse: no other request drives it, and INIT
drives it nowhere but in the pulse. -/
def Obligations.ResetLineMovesOnlyInInit : Prop :=
  (∀ (s : State) (v : Byte) (c : Bool), ∃ es, (sendByte v c s).trace = s.trace ++ es ∧
      (∀ l, Event.line .res l ∉ es) ∧ (sendByte v c s).lines.res = s.lines.res) ∧
    (∀ s t : State, step s = .next t → (∀ n, ¬Fetches s .init n) →
      t.lines.res = s.lines.res ∧ ∃ es, t.trace = s.trace ++ es ∧ ∀ l, Event.line .res l ∉ es) ∧
    ∀ (s t : State) (n : Nat), Fetches s .init n → Completes s t →
      ∃ es, t.trace = s.trace ++ [.line .res false, .wait 100, .line .res true] ++ es ∧ ∀ l, Event.line .res l ∉ es

/-- SETPIX, GLYPH, NUMBER and TEXT change the framebuffer and drive no line, but for a TEXT whose layout clears when
TEXT_CLEAR_PUSH is set (R40). -/
def Obligations.DrawingDrivesNoLine : Prop :=
  ∀ (s t : State) (i : Instr) (n : Nat), Fetches s i n → step s = .next t →
    ((∃ x y on, i = .setpix x y on) ∨
      (Composite i ∧ ∀ x y chars, i = .text x y chars → s.params.textClearPush = true →
        layoutClears chars x.toNat y.toNat = 0)) →
    t.trace = s.trace ∧ t.lines = s.lines

/-- The invariant of the machine holds at power-up, whatever stream is loaded. -/
def Obligations.InvariantAtPowerUp : Prop :=
  ∀ ws : List Word, (State.reset.load ws).Inv

/-- Every step keeps the invariant: the framebuffer's canonical form, RP inside the stream, LINES as TRACE left them, no
partial byte on the link, the power-up values until INIT, and a wholly written framebuffer after it. -/
def Obligations.StepKeepsInvariant : Prop :=
  ∀ s t : State, s.Inv → step s = .next t → t.Inv

/-- What the framebuffer holds before INIT cannot be observed: a step from UNINIT gives the same lines, trace,
responses, RP, MODE and FAULT whatever it holds, and the same framebuffer once MODE is READY (R15, R24). -/
def Obligations.PowerUpFramebufferIsUnobservable : Prop :=
  ∀ (s t : State) (m : List Host.Cell), s.mode = .uninit → step s = .next t →
    ∃ t', step { s with fb := m } = .next t' ∧ t'.lines = t.lines ∧ t'.trace = t.trace ∧ t'.resp = t.resp ∧
      t'.rp = t.rp ∧ t'.mode = t.mode ∧ t'.fault = t.fault ∧ (t.mode = .ready → t'.fb = t.fb)

/-! ## The link -/

/-- SEND: in READY it completes; it appends the mode-select drive and then the eight bits, bit 7 first, each sampled at a
rising clock edge, answers OK and changes nothing else (R65, R67, R71). -/
def Obligations.SendResult : Prop :=
  ∀ (s : State) (isCommand : Bool) (v : Byte), s.mode = .ready →
    exec (.send isCommand v) s =
      .next { s with
        lines := ⟨.high, if v.getLsbD 0 then .high else .low, s.lines.res, if isCommand then .high else .low⟩,
        trace := s.trace ++ byteEvents v isCommand, resp := s.resp ++ [.ok], rp := s.rp + 1 }

/-- R65, R72: a SendByte appends exactly 25 events, the mode-select drive and then the eight bits, bit 7 first, each with
the clock low before it and high after it; it leaves CLK at 1, DIN at bit 0 and DC at the level of its kind, changes
nothing else, and extends the decoded stream by exactly its pair when the rising edges before it are a multiple of 8. -/
def Obligations.SendByteOnTheLink : Prop :=
  ∀ (s : State) (v : Byte) (c : Bool),
    sendByte v c s =
        { s with
          lines := ⟨.high, if v.getLsbD 0 then .high else .low, s.lines.res, if c then .high else .low⟩,
          trace := s.trace ++ byteEvents v c } ∧
      (byteEvents v c).length = 25 ∧
      (8 ∣ risingEdges s.trace →
        decoded (sendByte v c s).trace = decoded s.trace ++ [(if c then .cmd else .data, v)])

/-- At a request boundary the rising edges stay a multiple of 8 (R74), and each completed request adds exactly the
bytes of its SendBytes to the decoded stream, in order, with nothing between them. -/
def Obligations.CompletedRequestSendsItsBytes : Prop :=
  ∀ (s t : State) (i : Instr) (n : Nat), Fetches s i n → Completes s t → 8 ∣ risingEdges s.trace →
    decoded t.trace = decoded s.trace ++ sent s i ∧ 8 ∣ risingEdges t.trace

/-- R118: the events and the decoded bytes of each completed request, in number; 26,828 events for INIT when INIT_SEQ is
the default of R64. -/
def Obligations.EventAndByteCounts : Prop :=
  (∀ (s t : State) (i : Instr) (n : Nat), Fetches s i n → Completes s t →
      t.trace.length = s.trace.length + eventCount s i ∧
        (8 ∣ risingEdges s.trace → (decoded t.trace).length = (decoded s.trace).length + decodedCount s i)) ∧
    ∀ s : State, s.params.initSeq = Config.defaultInitSeq → eventCount s .init = 26828

/-! ## INIT -/

/-- INIT completes in UNINIT, from any state: it pulses RES with a hold of at least 100 units, sends INIT_SEQ and then one
refresh of a blank frame with nothing between them, and drives RES at no other time; nothing but MODE, FB, LINES, TRACE,
RESP and RP changes (R75, R76, R77, R112). -/
def Obligations.InitTraceAndFrame : Prop :=
  ∀ s : State, s.mode = .uninit →
    ∃ t, exec .init s = .next t ∧
      t.trace = s.trace ++ [.line .res false, .wait 100, .line .res true] ++
        (initSeqBytes s.params).flatMap (fun b => byteEvents b true) ++ frameEvents s.params (fun _ _ => 0) ∧
      t = { s with mode := .ready, fb := t.fb, lines := t.lines, trace := t.trace, resp := s.resp ++ [.ok],
                   rp := s.rp + 1 } ∧
      (Event.wait 100).minDuration s.params = 100 * s.params.timeUnit

/-- R78: the state after an INIT that completes. -/
def Obligations.StateAfterInit : Prop :=
  ∀ s t : State, ∀ n, Fetches s .init n → Completes s t → 8 ∣ risingEdges s.trace →
    t.mode = .ready ∧ t.fault = .none ∧ (∀ c p, t.fbCell c p = some 0) ∧
      t.lines.res = .high ∧ t.lines.clk = .high ∧ t.lines.din = .low ∧ t.lines.dc = .low ∧
      t.resp = s.resp ++ [.ok] ∧ t.rp = s.rp + 1 ∧
      (decoded t.trace).length = (decoded s.trace).length + ((initSeqBytes s.params).length + 1048)

/-! ## The mapper, SETPIX, REFRESH and CLEAR -/

/-- R29: PixelMap gives column x, page 7 - (y div 8), and the mask whose only bit is bit 7 - (y mod 8). -/
def Obligations.PixelMapRule : Prop :=
  ∀ (x : Column) (y : Row), (pixelMap x y).column = x ∧ (pixelMap x y).page.val = 7 - y.val / 8 ∧
    ∀ j, j < 8 → ((pixelMap x y).mask.getLsbD j = true ↔ j = 7 - y.val % 8)

/-- R30: rows 0 to 7 are in page 7 and rows 56 to 63 in page 0, row y is bit 7 - (y mod 8) of its byte, and bit lane j of
`FB[c][p]` is the pixel at (c, 8 * (7 - p) + (7 - j)). -/
def Obligations.PixelLanes : Prop :=
  (∀ (x : Column) (y : Row), (y.val ≤ 7 → (pixelMap x y).page = 7) ∧ (56 ≤ y.val → (pixelMap x y).page = 0)) ∧
    (∀ (s : State) (x : Column) (y : Row),
      s.pixelAt x y = (s.fbByte x (pixelMap x y).page).getLsbD (7 - y.val % 8)) ∧
    ∀ (s : State) (c : Column) (p : Page) (j : Fin 8) (y : Row), y.val = 8 * (7 - p.val) + (7 - j.val) →
      (s.fbByte c p).getLsbD j.val = s.pixelAt c y

/-- SETPIX in READY completes.  In range it sets its pixel to ON, no other pixel changes, and no byte but the mapped one;
out of range no pixel changes.  Nothing but FB, RESP and RP changes (R80, R81). -/
def Obligations.SetpixResult : Prop :=
  ∀ (s : State) (x y : Byte) (on : Bool), s.mode = .ready →
    ∃ t, exec (.setpix x y on) s = .next t ∧
      t = { s with fb := t.fb, rp := s.rp + 1,
                   resp := s.resp ++ [if x.toNat ≤ 127 ∧ y.toNat ≤ 63 then .ok else .outOfBounds] } ∧
      (∀ (X : Column) (Y : Row), t.pixelAt X Y = if X.val = x.toNat ∧ Y.val = y.toNat then on else s.pixelAt X Y) ∧
      (∀ (X : Column) (Y : Row), X.val = x.toNat → Y.val = y.toNat →
        ∀ c p, ¬(c = (pixelMap X Y).column ∧ p = (pixelMap X Y).page) → t.fbCell c p = s.fbCell c p) ∧
      (127 < x.toNat ∨ 63 < y.toNat → ∀ c p, t.fbCell c p = s.fbCell c p)

/-- R96: a SETPIX with X > 127 or Y > 63 appends OUT_OF_BOUNDS, leaves FB, LINES and MODE unchanged, and advances RP; and
nothing else appends OUT_OF_BOUNDS. -/
def Obligations.SetpixOutOfBounds : Prop :=
  (∀ (s : State) (x y : Byte) (on : Bool), s.mode = .ready → 127 < x.toNat ∨ 63 < y.toNat →
      exec (.setpix x y on) s = .next { s with resp := s.resp ++ [.outOfBounds], rp := s.rp + 1 }) ∧
    ∀ s t : State, step s = .next t → t.resp = s.resp ++ [.outOfBounds] →
      ∃ x y on, Fetches s (.setpix x y on) 1 ∧ (127 < x.toNat ∨ 63 < y.toNat)

/-- REFRESH in READY completes: it sends each page's three addressing commands and its 128 bytes, pages and columns
ascending, and changes nothing but LINES, TRACE, RESP and RP (R82, R83). -/
def Obligations.RefreshResult : Prop :=
  ∀ s : State, s.mode = .ready →
    exec .refresh s =
      .next { s with
        lines := ⟨.high, if (s.fbByte 127 7).getLsbD 0 then .high else .low, s.lines.res, .low⟩,
        trace := s.trace ++ frameEvents s.params s.fbByte, resp := s.resp ++ [.ok], rp := s.rp + 1 }

/-- Where each byte stands in the pairs a REFRESH adds: the commands of page p at 131 p, 131 p + 1 and 131 p + 2, and
`FB[c][p]` at 131 p + 3 + c, of 1048 in all (R82). -/
def Obligations.RefreshPositions : Prop :=
  ∀ s t : State, s.mode = .ready → 8 ∣ risingEdges s.trace → exec .refresh s = .next t →
    ∃ pairs, decoded t.trace = decoded s.trace ++ pairs ∧ pairs.length = 1048 ∧
      ∀ p : Page, pairs[131 * p.val]? = some (.cmd, s.params.pageSel.get p) ∧
        pairs[131 * p.val + 1]? = some (.cmd, s.params.colLo) ∧
        pairs[131 * p.val + 2]? = some (.cmd, s.params.colHi) ∧
        ∀ c : Column, pairs[131 * p.val + 3 + c.val]? = some (.data, s.fbByte c p)

/-- CLEAR in READY completes: every byte of the framebuffer is 0x00 and every pixel off, the blank frame is sent, and
nothing but FB, LINES, TRACE, RESP and RP changes (R84, R85). -/
def Obligations.ClearResult : Prop :=
  ∀ s : State, s.mode = .ready →
    ∃ t, exec .clear s = .next t ∧
      t = { s with fb := t.fb, lines := ⟨.high, .low, s.lines.res, .low⟩,
                   trace := s.trace ++ frameEvents s.params (fun _ _ => 0), resp := s.resp ++ [.ok],
                   rp := s.rp + 1 } ∧
      (∀ c p, t.fbCell c p = some 0) ∧ ∀ (x : Column) (y : Row), t.pixelAt x y = false

/-- The same SETPIX twice leaves the framebuffer as once, REFRESH twice leaves the framebuffer and appends the same
events twice, and CLEAR twice leaves the framebuffer as once (R36). -/
def Obligations.RepeatedRequests : Prop :=
  (∀ (s t u : State) (x y : Byte) (on : Bool), s.mode = .ready → exec (.setpix x y on) s = .next t →
      exec (.setpix x y on) t = .next u → ∀ c p, u.fbCell c p = t.fbCell c p) ∧
    (∀ s t u : State, s.mode = .ready → exec .refresh s = .next t → exec .refresh t = .next u →
      u.fb = s.fb ∧ ∃ es, t.trace = s.trace ++ es ∧ u.trace = t.trace ++ es) ∧
    ∀ s t u : State, s.mode = .ready → exec .clear s = .next t → exec .clear t = .next u → u.fb = t.fb

/-! ## GLYPH, NUMBER and TEXT -/

/-- R87: for a character in [0x20, 0x7E], byte t < h of its glyph is byte t of entry `ch - 0x20` of GLYPH12 when h = 12,
of GLYPH16 when h = 16. -/
def Obligations.GlyphByteRule : Prop :=
  ∀ (ps : Config.Params) (ch : Byte) (lo : 0x20 ≤ ch.toNat) (hi : ch.toNat ≤ 0x7E),
    (∀ t : Fin 12, glyphByte ps .px12 ch t.val = (ps.glyph12.get ⟨ch.toNat - 0x20, by omega⟩).get t) ∧
      ∀ t : Fin 16, glyphByte ps .px16 ch t.val = (ps.glyph16.get ⟨ch.toNat - 0x20, by omega⟩).get t

/-- GLYPH in READY, with no coordinate above 255, completes: its cell is 8 columns by h rows, pixel (i, j) of the cell
is bit i * h + j of the glyph, or its complement in inverted polarity, every other pixel is as before, pixels outside
the display are dropped, and nothing but FB, RESP and RP changes (R88, R89, R94). The 12-pixel cell's 8 columns rest on
GLYPH_COLUMN_BREAK = false, this hardware's value (R6, D18; the model's choice in log entry 16). -/
def Obligations.GlyphPixels : Prop :=
  ∀ (s : State) (x y ch : Byte) (font : Font) (normal : Bool), s.mode = .ready →
    x.toNat + 8 ≤ 255 → y.toNat + height font ≤ 255 →
    ∃ t, exec (.glyph x y ch font normal) s = .next t ∧
      t = { s with fb := t.fb, resp := s.resp ++ [.ok], rp := s.rp + 1 } ∧
      (∀ (X : Column) (Y : Row), t.pixelAt X Y =
        if InCell x.toNat y.toNat font X Y then
          (cellPixel s.params font ch (X.val - x.toNat) (Y.val - y.toNat) == normal)
        else s.pixelAt X Y) ∧
      ∀ (c : Column) (p : Page),
        (∀ (X : Column) (Y : Row), InCell x.toNat y.toNat font X Y →
          ¬((pixelMap X Y).column = c ∧ (pixelMap X Y).page = p)) →
        t.fbCell c p = s.fbCell c p

/-- GLYPH in READY with Y + h > 255 or X + 8 > 255 raises COORD_OVERFLOW and changes nothing else (R86, R89). X + 8 for
h = 12 rests on GLYPH_COLUMN_BREAK = false, this hardware's value (R6, D18; the model's choice in log entry 16). -/
def Obligations.GlyphOverflow : Prop :=
  ∀ (s : State) (x y ch : Byte) (font : Font) (normal : Bool), s.mode = .ready →
    255 < x.toNat + 8 ∨ 255 < y.toNat + height font →
    exec (.glyph x y ch font normal) s = .next { s with fault := .coordOverflow }

/-- The variant GLYPH_COLUMN_BREAK = true: with h = 12 a glyph is 6 columns wide, column i is the glyph bytes 2 i and
2 i + 1 without the low four bits of the second; with h = 16 the glyph is unchanged (R88). -/
def Obligations.GlyphColumnBreakVariant : Prop :=
  (∀ (s : State) (x y : Nat) (ch : Byte) (normal : Bool), x + 6 ≤ 255 → y + 12 ≤ 255 →
      ∃ cur t, drawGlyphWith true x y ch .px12 normal s = .ok cur t ∧ t = { s with fb := t.fb } ∧
        ∀ (X : Column) (Y : Row), t.pixelAt X Y =
          if x ≤ X.val ∧ X.val < x + 6 ∧ y ≤ Y.val ∧ Y.val < y + 12 then
            ((glyphByte s.params .px12 ch (2 * (X.val - x) + (Y.val - y) / 8)).getLsbD (7 - (Y.val - y) % 8) == normal)
          else s.pixelAt X Y) ∧
    ∀ (s : State) (x y : Nat) (ch : Byte) (normal : Bool),
      drawGlyphWith true x y ch .px16 normal s = drawGlyphWith false x y ch .px16 normal s

/-- R90: the digits of v in n places, most significant first, spell v mod 10^n: only the low n decimal digits appear, and
leading places hold the digit 0. -/
def Obligations.DigitsSpellTheNumber : Prop :=
  ∀ v n : Nat, n ≤ 10 → v < 2 ^ 32 →
    (∀ t, t < n → digit v n t = v / 10 ^ (n - 1 - t) % 10 ∧ digit v n t ≤ 9 ∧
      (v < 10 ^ (n - 1 - t) → digit v n t = 0)) ∧
      (List.range n).foldl (fun a t => 10 * a + digit v n t) 0 = v % 10 ^ n

/-- NUMBER in READY, with no coordinate above 255, completes: digit d stands at x + d * (h div 2) in an 8-column cell, a
later digit overwrites the columns it shares with an earlier one, leading zeros are drawn, every other pixel is as
before, N = 0 draws nothing, and nothing but FB, RESP and RP changes (R90, R91, R94). The 12-pixel digits' cells of 8
columns and their overlap rest on GLYPH_COLUMN_BREAK = false, this hardware's value (R6, D18; the model's choice in log
entry 16). -/
def Obligations.NumberPixels : Prop :=
  ∀ (s : State) (x y : Byte) (n : BitVec 4) (font : Font) (v : Word), s.mode = .ready →
    (n = 0 ∨ (x.toNat + (n.toNat - 1) * (height font / 2) + 8 ≤ 255 ∧ y.toNat + height font ≤ 255)) →
    ∃ t, exec (.number x y n font v) s = .next t ∧
      t = { s with fb := t.fb, resp := s.resp ++ [.ok], rp := s.rp + 2 } ∧
      (∀ (c : Column) (p : Page),
        (∀ (d : Nat) (X : Column) (Y : Row), d < n.toNat → InCell (x.toNat + d * (height font / 2)) y.toNat font X Y →
          ¬((pixelMap X Y).column = c ∧ (pixelMap X Y).page = p)) →
        t.fbCell c p = s.fbCell c p) ∧
      ∀ (X : Column) (Y : Row),
        let d := min ((X.val - x.toNat) / (height font / 2)) (n.toNat - 1)
        t.pixelAt X Y =
          if n ≠ 0 ∧ x.toNat ≤ X.val ∧ X.val < x.toNat + (n.toNat - 1) * (height font / 2) + 8 ∧
              y.toNat ≤ Y.val ∧ Y.val < y.toNat + height font then
            cellPixel s.params font (BitVec.ofNat 8 (0x30 + v.toNat / 10 ^ (n.toNat - 1 - d) % 10))
              (X.val - x.toNat - d * (height font / 2)) (Y.val - y.toNat)
          else s.pixelAt X Y

/-- NUMBER in READY with a digit whose glyph computes a coordinate above 255 raises COORD_OVERFLOW and changes nothing
else (R86, R91, R99). The last digit's 8 columns for h = 12 rest on GLYPH_COLUMN_BREAK = false, this hardware's value
(R6, D18; the model's choice in log entry 16). -/
def Obligations.NumberOverflow : Prop :=
  ∀ (s : State) (x y : Byte) (n : BitVec 4) (font : Font) (v : Word), s.mode = .ready → n ≠ 0 →
    255 < x.toNat + (n.toNat - 1) * (height font / 2) + 8 ∨ 255 < y.toNat + height font →
    exec (.number x y n font v) s = .next { s with fault := .coordOverflow }

/-- TEXT in READY that does not overflow completes: its characters are drawn one after the other where R92's layout puts
them, each layout clear before its character; every glyph begins at x ≤ 122 and y ≤ 58; and RP advances by
1 + (n div 4) + 1 (R55, R92, R93). -/
def Obligations.TextLayout : Prop :=
  ∀ (s : State) (x y : Byte) (chars : List Byte), s.mode = .ready → ¬TextOverflows chars x.toNat y.toNat →
    (∃ t, exec (.text x y chars) s = .next t ∧
      t = { (textPlan chars x.toNat y.toNat).foldl drawMove s with
            resp := s.resp ++ [.ok], rp := s.rp + (1 + (chars.length / 4 + 1)) } ∧
      t.mode = s.mode ∧ t.fault = s.fault ∧ t.stream = s.stream ∧ t.params = s.params) ∧
      ∀ m ∈ textPlan chars x.toNat y.toNat, m.x ≤ 122 ∧ m.y ≤ 58

/-- The framebuffer bytes a TEXT stores to: when its layout does not clear, a byte that holds no pixel of a laid-out
character's cell is as before; and a byte that was written stays written (R35, R92). -/
def Obligations.TextStoresOnlyInCells : Prop :=
  ∀ (s t : State) (x y : Byte) (chars : List Byte), s.mode = .ready → exec (.text x y chars) s = .next t →
    (∀ c p, s.fbCell c p ≠ none → t.fbCell c p ≠ none) ∧
      (layoutClears chars x.toNat y.toNat = 0 → ∀ (c : Column) (p : Page),
        (∀ m ∈ textPlan chars x.toNat y.toNat, ∀ (X : Column) (Y : Row), InCell m.x m.y .px12 X Y →
          ¬((pixelMap X Y).column = c ∧ (pixelMap X Y).page = p)) →
        t.fbCell c p = s.fbCell c p)

/-- TEXT in READY raises COORD_OVERFLOW, and changes nothing else, when its first character wraps with Y + 16 > 255; it
completes otherwise (R86, R93). -/
def Obligations.TextOverflow : Prop :=
  ∀ (s t : State) (x y : Byte) (chars : List Byte), s.mode = .ready → s.fault = .none →
    exec (.text x y chars) s = .next t →
    (t.fault ≠ .none ↔ TextOverflows chars x.toNat y.toNat) ∧
      (t.fault ≠ .none → t = { s with fault := .coordOverflow })

/-- TEXT from (0, 0): 16 characters a line, lines 16 rows apart, four lines a screen, and a cleared screen for each
further 64 characters: pixel (X, Y) is that of the last character laid out over it (R92, R93). Every 12-pixel glyph
pixel here rests on GLYPH_COLUMN_BREAK = false, this hardware's value (R6, D18; the model's choice in log entry 16). -/
def Obligations.TextGridFromOrigin : Prop :=
  ∀ (s : State) (chars : List Byte), s.mode = .ready →
    ∃ t, exec (.text 0 0 chars) s = .next t ∧
      ∀ (X : Column) (Y : Row),
        let k := 64 * ((chars.length - 1) / 64) + 16 * (Y.val / 16) + X.val / 8
        t.pixelAt X Y =
          if Y.val % 16 < 12 ∧ k < chars.length then
            cellPixel s.params .px12 (chars.getD k 0) (X.val % 8) (Y.val % 16)
          else if chars.length ≤ 64 then s.pixelAt X Y else false

/-- R117: a TEXT whose layout clears erases everything drawn before it: the framebuffer it leaves does not depend on the
one it found. -/
def Obligations.TextClearErases : Prop :=
  ∀ (s : State) (m : List Host.Cell) (x y : Byte) (chars : List Byte), s.mode = .ready →
    ¬TextOverflows chars x.toNat y.toNat → 0 < layoutClears chars x.toNat y.toNat →
    ∃ t t', exec (.text x y chars) s = .next t ∧ exec (.text x y chars) { s with fb := m } = .next t' ∧ t.fb = t'.fb

/-- A composite request answers OK when it completes and never OUT_OF_BOUNDS, wherever its pixels fall (R94). -/
def Obligations.CompositesAnswerOk : Prop :=
  ∀ (s t : State) (i : Instr) (n : Nat), Fetches s i n → Composite i → step s = .next t →
    (t.fault = .none → t.resp = s.resp ++ [.ok]) ∧ (t.fault ≠ .none → t.resp = s.resp)

/-! ## The assembler -/

/-- R63: the expansions of the pseudo-instructions, each of which encodes to the same words as its expansion. -/
def Obligations.PseudoInstructions : Prop :=
  (∀ v, Asm.expand (.cmd v) = .sendC v ∧ Asm.expand (.data v) = .sendD v) ∧
    (∀ x y, Asm.expand (.pset x y) = .setpix x y true ∧ Asm.expand (.pclr x y) = .setpix x y false) ∧
    ∀ l, Asm.lineWords (some l) = Asm.lineWords (some (Asm.expand l))
end

