-- ==== Sys2Proof/Laws/State.lean ====
section
/-!
SUPPORT. One lemma per field of `State` and per operation that updates the state, each true by `rfl`, so that no later
proof unfolds a record update.
-/

namespace Sys2Proof.Machine

@[simp] theorem emit_mode (s : State) (es : List Event) : (s.emit es).mode = s.mode := rfl
@[simp] theorem emit_fault (s : State) (es : List Event) : (s.emit es).fault = s.fault := rfl
@[simp] theorem emit_rp (s : State) (es : List Event) : (s.emit es).rp = s.rp := rfl
@[simp] theorem emit_fb (s : State) (es : List Event) : (s.emit es).fb = s.fb := rfl
@[simp] theorem emit_lines (s : State) (es : List Event) : (s.emit es).lines = es.foldl Lines.after s.lines := rfl
@[simp] theorem emit_trace (s : State) (es : List Event) : (s.emit es).trace = s.trace ++ es := rfl
@[simp] theorem emit_resp (s : State) (es : List Event) : (s.emit es).resp = s.resp := rfl
@[simp] theorem emit_stream (s : State) (es : List Event) : (s.emit es).stream = s.stream := rfl
@[simp] theorem emit_params (s : State) (es : List Event) : (s.emit es).params = s.params := rfl

@[simp] theorem respond_mode (s : State) (r : Response) : (s.respond r).mode = s.mode := rfl
@[simp] theorem respond_fault (s : State) (r : Response) : (s.respond r).fault = s.fault := rfl
@[simp] theorem respond_rp (s : State) (r : Response) : (s.respond r).rp = s.rp := rfl
@[simp] theorem respond_fb (s : State) (r : Response) : (s.respond r).fb = s.fb := rfl
@[simp] theorem respond_lines (s : State) (r : Response) : (s.respond r).lines = s.lines := rfl
@[simp] theorem respond_trace (s : State) (r : Response) : (s.respond r).trace = s.trace := rfl
@[simp] theorem respond_resp (s : State) (r : Response) : (s.respond r).resp = s.resp ++ [r] := rfl
@[simp] theorem respond_stream (s : State) (r : Response) : (s.respond r).stream = s.stream := rfl
@[simp] theorem respond_params (s : State) (r : Response) : (s.respond r).params = s.params := rfl

@[simp] theorem advance_mode (s : State) (n : Nat) : (s.advance n).mode = s.mode := rfl
@[simp] theorem advance_fault (s : State) (n : Nat) : (s.advance n).fault = s.fault := rfl
@[simp] theorem advance_rp (s : State) (n : Nat) : (s.advance n).rp = s.rp + n := rfl
@[simp] theorem advance_fb (s : State) (n : Nat) : (s.advance n).fb = s.fb := rfl
@[simp] theorem advance_lines (s : State) (n : Nat) : (s.advance n).lines = s.lines := rfl
@[simp] theorem advance_trace (s : State) (n : Nat) : (s.advance n).trace = s.trace := rfl
@[simp] theorem advance_resp (s : State) (n : Nat) : (s.advance n).resp = s.resp := rfl
@[simp] theorem advance_stream (s : State) (n : Nat) : (s.advance n).stream = s.stream := rfl
@[simp] theorem advance_params (s : State) (n : Nat) : (s.advance n).params = s.params := rfl

@[simp] theorem complete_mode (s : State) (r : Response) (n : Nat) : (s.complete r n).mode = s.mode := rfl
@[simp] theorem complete_fault (s : State) (r : Response) (n : Nat) : (s.complete r n).fault = s.fault := rfl
@[simp] theorem complete_rp (s : State) (r : Response) (n : Nat) : (s.complete r n).rp = s.rp + n := rfl
@[simp] theorem complete_fb (s : State) (r : Response) (n : Nat) : (s.complete r n).fb = s.fb := rfl
@[simp] theorem complete_lines (s : State) (r : Response) (n : Nat) : (s.complete r n).lines = s.lines := rfl
@[simp] theorem complete_trace (s : State) (r : Response) (n : Nat) : (s.complete r n).trace = s.trace := rfl
@[simp] theorem complete_resp (s : State) (r : Response) (n : Nat) : (s.complete r n).resp = s.resp ++ [r] := rfl
@[simp] theorem complete_stream (s : State) (r : Response) (n : Nat) : (s.complete r n).stream = s.stream := rfl
@[simp] theorem complete_params (s : State) (r : Response) (n : Nat) : (s.complete r n).params = s.params := rfl

@[simp] theorem raiseFault_mode (s : State) (c : FaultCode) : (raiseFault c s).mode = s.mode := rfl
@[simp] theorem raiseFault_fault (s : State) (c : FaultCode) : (raiseFault c s).fault = c := rfl
@[simp] theorem raiseFault_rp (s : State) (c : FaultCode) : (raiseFault c s).rp = s.rp := rfl
@[simp] theorem raiseFault_fb (s : State) (c : FaultCode) : (raiseFault c s).fb = s.fb := rfl
@[simp] theorem raiseFault_lines (s : State) (c : FaultCode) : (raiseFault c s).lines = s.lines := rfl
@[simp] theorem raiseFault_trace (s : State) (c : FaultCode) : (raiseFault c s).trace = s.trace := rfl
@[simp] theorem raiseFault_resp (s : State) (c : FaultCode) : (raiseFault c s).resp = s.resp := rfl
@[simp] theorem raiseFault_stream (s : State) (c : FaultCode) : (raiseFault c s).stream = s.stream := rfl
@[simp] theorem raiseFault_params (s : State) (c : FaultCode) : (raiseFault c s).params = s.params := rfl

@[simp] theorem setFbByte_mode (s : State) (c : Column) (p : Page) (v : Byte) : (s.setFbByte c p v).mode = s.mode := rfl
@[simp] theorem setFbByte_fault (s : State) (c : Column) (p : Page) (v : Byte) : (s.setFbByte c p v).fault = s.fault := rfl
@[simp] theorem setFbByte_rp (s : State) (c : Column) (p : Page) (v : Byte) : (s.setFbByte c p v).rp = s.rp := rfl
@[simp] theorem setFbByte_fb (s : State) (c : Column) (p : Page) (v : Byte) : (s.setFbByte c p v).fb = Memory.write s.fb (fbaddr c p) v := rfl
@[simp] theorem setFbByte_lines (s : State) (c : Column) (p : Page) (v : Byte) : (s.setFbByte c p v).lines = s.lines := rfl
@[simp] theorem setFbByte_trace (s : State) (c : Column) (p : Page) (v : Byte) : (s.setFbByte c p v).trace = s.trace := rfl
@[simp] theorem setFbByte_resp (s : State) (c : Column) (p : Page) (v : Byte) : (s.setFbByte c p v).resp = s.resp := rfl
@[simp] theorem setFbByte_stream (s : State) (c : Column) (p : Page) (v : Byte) : (s.setFbByte c p v).stream = s.stream := rfl
@[simp] theorem setFbByte_params (s : State) (c : Column) (p : Page) (v : Byte) : (s.setFbByte c p v).params = s.params := rfl

@[simp] theorem zeroFB_mode (s : State) : (zeroFB s).mode = s.mode := rfl
@[simp] theorem zeroFB_fault (s : State) : (zeroFB s).fault = s.fault := rfl
@[simp] theorem zeroFB_rp (s : State) : (zeroFB s).rp = s.rp := rfl
@[simp] theorem zeroFB_fb (s : State) : (zeroFB s).fb = Memory.zero := rfl
@[simp] theorem zeroFB_lines (s : State) : (zeroFB s).lines = s.lines := rfl
@[simp] theorem zeroFB_trace (s : State) : (zeroFB s).trace = s.trace := rfl
@[simp] theorem zeroFB_resp (s : State) : (zeroFB s).resp = s.resp := rfl
@[simp] theorem zeroFB_stream (s : State) : (zeroFB s).stream = s.stream := rfl
@[simp] theorem zeroFB_params (s : State) : (zeroFB s).params = s.params := rfl

@[simp] theorem refreshCore_mode (s : State) : (refreshCore s).mode = s.mode := by
  rw [refreshCore, emit_mode]
@[simp] theorem refreshCore_fault (s : State) : (refreshCore s).fault = s.fault := by
  rw [refreshCore, emit_fault]
@[simp] theorem refreshCore_rp (s : State) : (refreshCore s).rp = s.rp := by
  rw [refreshCore, emit_rp]
@[simp] theorem refreshCore_fb (s : State) : (refreshCore s).fb = s.fb := by
  rw [refreshCore, emit_fb]
@[simp] theorem refreshCore_lines (s : State) : (refreshCore s).lines = (refreshEvents s).foldl Lines.after s.lines := by
  rw [refreshCore, emit_lines]
@[simp] theorem refreshCore_trace (s : State) : (refreshCore s).trace = s.trace ++ refreshEvents s := by
  rw [refreshCore, emit_trace]
@[simp] theorem refreshCore_resp (s : State) : (refreshCore s).resp = s.resp := by
  rw [refreshCore, emit_resp]
@[simp] theorem refreshCore_stream (s : State) : (refreshCore s).stream = s.stream := by
  rw [refreshCore, emit_stream]
@[simp] theorem refreshCore_params (s : State) : (refreshCore s).params = s.params := by
  rw [refreshCore, emit_params]

@[simp] theorem sendByte_mode (v : Byte) (c : Bool) (s : State) : (sendByte v c s).mode = s.mode := by
  rw [sendByte, emit_mode]
@[simp] theorem sendByte_fault (v : Byte) (c : Bool) (s : State) : (sendByte v c s).fault = s.fault := by
  rw [sendByte, emit_fault]
@[simp] theorem sendByte_rp (v : Byte) (c : Bool) (s : State) : (sendByte v c s).rp = s.rp := by
  rw [sendByte, emit_rp]
@[simp] theorem sendByte_fb (v : Byte) (c : Bool) (s : State) : (sendByte v c s).fb = s.fb := by
  rw [sendByte, emit_fb]
@[simp] theorem sendByte_lines (v : Byte) (c : Bool) (s : State) : (sendByte v c s).lines = (sendByteEvents v c).foldl Lines.after s.lines := by
  rw [sendByte, emit_lines]
@[simp] theorem sendByte_trace (v : Byte) (c : Bool) (s : State) : (sendByte v c s).trace = s.trace ++ sendByteEvents v c := by
  rw [sendByte, emit_trace]
@[simp] theorem sendByte_resp (v : Byte) (c : Bool) (s : State) : (sendByte v c s).resp = s.resp := by
  rw [sendByte, emit_resp]
@[simp] theorem sendByte_stream (v : Byte) (c : Bool) (s : State) : (sendByte v c s).stream = s.stream := by
  rw [sendByte, emit_stream]
@[simp] theorem sendByte_params (v : Byte) (c : Bool) (s : State) : (sendByte v c s).params = s.params := by
  rw [sendByte, emit_params]

@[simp] theorem load_mode (s : State) (ws : List Word) : (s.load ws).mode = s.mode := rfl
@[simp] theorem load_fault (s : State) (ws : List Word) : (s.load ws).fault = s.fault := rfl
@[simp] theorem load_rp (s : State) (ws : List Word) : (s.load ws).rp = s.rp := rfl
@[simp] theorem load_fb (s : State) (ws : List Word) : (s.load ws).fb = s.fb := rfl
@[simp] theorem load_lines (s : State) (ws : List Word) : (s.load ws).lines = s.lines := rfl
@[simp] theorem load_trace (s : State) (ws : List Word) : (s.load ws).trace = s.trace := rfl
@[simp] theorem load_resp (s : State) (ws : List Word) : (s.load ws).resp = s.resp := rfl
@[simp] theorem load_stream (s : State) (ws : List Word) : (s.load ws).stream = ws := rfl
@[simp] theorem load_params (s : State) (ws : List Word) : (s.load ws).params = s.params := rfl

@[simp] theorem placeAtRp_mode (s : State) (ws : List Word) : (s.placeAtRp ws).mode = s.mode := rfl
@[simp] theorem placeAtRp_fault (s : State) (ws : List Word) : (s.placeAtRp ws).fault = .none := rfl
@[simp] theorem placeAtRp_rp (s : State) (ws : List Word) : (s.placeAtRp ws).rp = s.rp := rfl
@[simp] theorem placeAtRp_fb (s : State) (ws : List Word) : (s.placeAtRp ws).fb = s.fb := rfl
@[simp] theorem placeAtRp_lines (s : State) (ws : List Word) : (s.placeAtRp ws).lines = s.lines := rfl
@[simp] theorem placeAtRp_trace (s : State) (ws : List Word) : (s.placeAtRp ws).trace = s.trace := rfl
@[simp] theorem placeAtRp_resp (s : State) (ws : List Word) : (s.placeAtRp ws).resp = s.resp := rfl
@[simp] theorem placeAtRp_stream (s : State) (ws : List Word) : (s.placeAtRp ws).stream = placeAt s.stream s.rp ws := rfl
@[simp] theorem placeAtRp_params (s : State) (ws : List Word) : (s.placeAtRp ws).params = s.params := rfl

/-! ## Power-up -/

@[simp] theorem reset_mode : State.reset.mode = .uninit := rfl
@[simp] theorem reset_fault : State.reset.fault = .none := rfl
@[simp] theorem reset_rp : State.reset.rp = 0 := rfl
@[simp] theorem reset_fb : State.reset.fb = [] := rfl
@[simp] theorem reset_lines : State.reset.lines = ⟨.x, .x, .x, .x⟩ := rfl
@[simp] theorem reset_trace : State.reset.trace = [] := rfl
@[simp] theorem reset_resp : State.reset.resp = [] := rfl
@[simp] theorem reset_stream : State.reset.stream = [] := rfl
@[simp] theorem reset_params : State.reset.params = Config.params := rfl

/-! ## One line register -/

@[simp] theorem ofBit_false : Level.ofBit false = .low := rfl
@[simp] theorem ofBit_true : Level.ofBit true = .high := rfl
@[simp] theorem sample_ofBit (b : Bool) : (Level.ofBit b).sample = b := by cases b <;> rfl
@[simp] theorem ofBit_ne_x (b : Bool) : Level.ofBit b ≠ .x := by cases b <;> simp

@[simp] theorem drive_level (ls : Lines) (id : LineId) (l : Bool) : (ls.drive id l).level id = Level.ofBit l := by
  cases id <;> rfl

@[simp] theorem drive_level_ne (ls : Lines) {id other : LineId} (l : Bool) (h : other ≠ id) :
    (ls.drive id l).level other = ls.level other := by
  cases id <;> cases other <;> first | rfl | exact absurd rfl h

/-! ## Bytes of the framebuffer under updates of other fields -/

@[simp] theorem emit_fbCell (s : State) (es : List Event) (c : Column) (p : Page) :
    (s.emit es).fbCell c p = s.fbCell c p := rfl
@[simp] theorem emit_fbByte (s : State) (es : List Event) (c : Column) (p : Page) :
    (s.emit es).fbByte c p = s.fbByte c p := rfl
@[simp] theorem emit_pixelAt (s : State) (es : List Event) (x : Column) (y : Row) :
    (s.emit es).pixelAt x y = s.pixelAt x y := rfl
@[simp] theorem refreshCore_fbCell (s : State) (c : Column) (p : Page) : (refreshCore s).fbCell c p = s.fbCell c p := by
  rw [refreshCore, emit_fbCell]
@[simp] theorem refreshCore_fbByte (s : State) (c : Column) (p : Page) : (refreshCore s).fbByte c p = s.fbByte c p := by
  rw [refreshCore, emit_fbByte]
@[simp] theorem refreshCore_pixelAt (s : State) (x : Column) (y : Row) : (refreshCore s).pixelAt x y = s.pixelAt x y := by
  rw [refreshCore, emit_pixelAt]
@[simp] theorem complete_fbCell (s : State) (r : Response) (n : Nat) (c : Column) (p : Page) :
    (s.complete r n).fbCell c p = s.fbCell c p := rfl
@[simp] theorem complete_fbByte (s : State) (r : Response) (n : Nat) (c : Column) (p : Page) :
    (s.complete r n).fbByte c p = s.fbByte c p := rfl
@[simp] theorem complete_pixelAt (s : State) (r : Response) (n : Nat) (x : Column) (y : Row) :
    (s.complete r n).pixelAt x y = s.pixelAt x y := rfl
@[simp] theorem raiseFault_fbCell (s : State) (code : FaultCode) (c : Column) (p : Page) :
    (raiseFault code s).fbCell c p = s.fbCell c p := rfl
@[simp] theorem raiseFault_pixelAt (s : State) (code : FaultCode) (x : Column) (y : Row) :
    (raiseFault code s).pixelAt x y = s.pixelAt x y := rfl

end Sys2Proof.Machine
end

