-- ==== Sys2Proof/Laws/Memory.lean ====
section
/-!
SUPPORT. The framebuffer as memory: a read after a write, the canonical form under every memory operation, and the
zeroed framebuffer.
-/

namespace Sys2Proof.Machine

/-! ## Addresses -/

theorem fbaddr_lt (c : Column) (p : Page) : fbaddr c p < fbBytes := by
  simp only [fbaddr, fbBytes]; omega

theorem fbaddr_injective {c c' : Column} {p p' : Page} (h : fbaddr c p = fbaddr c' p') : c = c' ∧ p = p' := by
  simp only [fbaddr] at h
  exact ⟨Fin.ext (by omega), Fin.ext (by omega)⟩

theorem fbaddr_inj {c c' : Column} {p p' : Page} : fbaddr c p = fbaddr c' p' ↔ c = c' ∧ p = p' :=
  ⟨fbaddr_injective, by rintro ⟨rfl, rfl⟩; rfl⟩

/-! ## Read after write -/

theorem read_none_of_risesFrom {m : List Host.Cell} {lo k : Nat} (h : Memory.risesFrom lo m = true) (hk : k < lo) :
    Memory.read m k = none := by
  induction m generalizing lo with
  | nil => rfl
  | cons e rest ih =>
    obtain ⟨a, v⟩ := e
    simp only [Memory.risesFrom, Bool.and_eq_true, decide_eq_true_eq] at h
    have : a ≠ k := by omega
    simp [Memory.read, this, ih h.2 (by omega)]

/-- A byte reads as last written; every other byte reads as before.  No canonical form is needed. -/
theorem read_write (m : List Host.Cell) (k j : Nat) (v : Byte) :
    Memory.read (Memory.write m k v) j = if k = j then some v else Memory.read m j := by
  induction m with
  | nil => rfl
  | cons e rest ih =>
    obtain ⟨a, w⟩ := e
    simp only [Memory.write]
    by_cases h1 : k < a
    · simp [h1, Memory.read]
    by_cases h2 : k = a
    · subst h2
      simp only [lt_irrefl, if_false, if_true, Memory.read]
      split <;> rfl
    · simp only [h1, h2, if_false, Memory.read, ih]
      by_cases h3 : k = j
      · have : a ≠ j := by omega
        simp [h3, this]
      · simp [h3]

@[simp] theorem read_write_self (m : List Host.Cell) (k : Nat) (v : Byte) :
    Memory.read (Memory.write m k v) k = some v := by simp [read_write]

/-! ## The canonical form -/

theorem risesFrom_mono {m : List Host.Cell} {lo lo' : Nat} (h : Memory.risesFrom lo m = true) (hl : lo' ≤ lo) :
    Memory.risesFrom lo' m = true := by
  cases m with
  | nil => rfl
  | cons e rest =>
    simp only [Memory.risesFrom, Bool.and_eq_true, decide_eq_true_eq] at h ⊢
    exact ⟨⟨by omega, h.1.2⟩, h.2⟩

theorem risesFrom_write {m : List Host.Cell} {lo k : Nat} (v : Byte) (h : Memory.risesFrom lo m = true)
    (hlo : lo ≤ k) (hk : k < fbBytes) : Memory.risesFrom lo (Memory.write m k v) = true := by
  induction m generalizing lo with
  | nil => simp [Memory.write, Memory.risesFrom, hlo, hk]
  | cons e rest ih =>
    obtain ⟨a, w⟩ := e
    simp only [Memory.risesFrom, Bool.and_eq_true, decide_eq_true_eq] at h
    simp only [Memory.write]
    by_cases h1 : k < a
    · simp only [h1, if_true, Memory.risesFrom, Bool.and_eq_true, decide_eq_true_eq]
      exact ⟨⟨hlo, hk⟩, ⟨by omega, h.1.2⟩, h.2⟩
    by_cases h2 : k = a
    · subst h2
      simp [Memory.risesFrom, h]
    · simp only [h1, h2, if_false, Memory.risesFrom, Bool.and_eq_true, decide_eq_true_eq]
      exact ⟨h.1, ih h.2 (by omega)⟩

/-- A write inside the framebuffer keeps the canonical form. -/
theorem wf_write {m : List Host.Cell} {k : Nat} (v : Byte) (h : Memory.wf m = true) (hk : k < fbBytes) :
    Memory.wf (Memory.write m k v) = true :=
  risesFrom_write v h (Nat.zero_le k) hk

theorem wf_reset : Memory.wf State.reset.fb = true := rfl

theorem risesFrom_zeros (n lo : Nat) (h : lo + n ≤ fbBytes) :
    Memory.risesFrom lo (Memory.zerosFrom n lo) = true := by
  induction n generalizing lo with
  | zero => rfl
  | succ n ih =>
    simp only [Memory.zerosFrom, Memory.risesFrom, Bool.and_eq_true, decide_eq_true_eq]
    exact ⟨⟨le_refl _, by omega⟩, ih (lo + 1) (by omega)⟩

theorem read_zeros (n lo k : Nat) (h1 : lo ≤ k) (h2 : k < lo + n) :
    Memory.read (Memory.zerosFrom n lo) k = some 0 := by
  induction n generalizing lo with
  | zero => omega
  | succ n ih =>
    simp only [Memory.zerosFrom, Memory.read]
    by_cases h : lo = k
    · simp [h]
    · simp [h, ih (lo + 1) (by omega) (by omega)]

/-- ZeroFB leaves the canonical form. -/
theorem wf_zero : Memory.wf Memory.zero = true := by
  unfold Memory.zero
  exact risesFrom_zeros fbBytes 0 (by omega)

/-- Every byte of the zeroed framebuffer is 0x00 (R84). -/
theorem read_zero {k : Nat} (h : k < fbBytes) : Memory.read Memory.zero k = some 0 := by
  unfold Memory.zero
  exact read_zeros fbBytes 0 k (Nat.zero_le k) (by omega)

/-! ## The same at the level of the state -/

theorem setFbByte_fbCell (s : State) (c c' : Column) (p p' : Page) (v : Byte) :
    (s.setFbByte c p v).fbCell c' p' = if c = c' ∧ p = p' then some v else s.fbCell c' p' := by
  simp only [State.fbCell, setFbByte_fb, read_write, fbaddr_inj]

theorem setFbByte_fbByte (s : State) (c c' : Column) (p p' : Page) (v : Byte) :
    (s.setFbByte c p v).fbByte c' p' = if c = c' ∧ p = p' then v else s.fbByte c' p' := by
  simp only [State.fbByte, setFbByte_fbCell]
  split <;> rfl

@[simp] theorem zeroFB_fbCell (s : State) (c : Column) (p : Page) : (zeroFB s).fbCell c p = some 0 :=
  read_zero (fbaddr_lt c p)

@[simp] theorem zeroFB_fbByte (s : State) (c : Column) (p : Page) : (zeroFB s).fbByte c p = 0 := by
  simp [State.fbByte]

@[simp] theorem zeroFB_pixelAt (s : State) (x : Column) (y : Row) : (zeroFB s).pixelAt x y = false := by
  simp [State.pixelAt]

end Sys2Proof.Machine
end

