-- ==== Sys2Proof/Laws/Ops.lean ====
section
/-!
SUPPORT. The primitives of R9: a sequence of events is its events one after the other, a check passes or overflows, and a
request but INIT runs in READY and faults in UNINIT.
-/

namespace Sys2Proof.Machine

/-! ## Events -/

theorem emit_nil (s : State) : s.emit [] = s := by simp [State.emit]

/-- Performing two sequences is performing the second after the first. -/
theorem emit_append (s : State) (es es' : List Event) : s.emit (es ++ es') = (s.emit es).emit es' := by
  simp [State.emit]

/-- A sequence of events is its first event, then the others (R17). -/
theorem emit_cons (s : State) (e : Event) (es : List Event) : s.emit (e :: es) = (s.emit [e]).emit es :=
  emit_append s [e] es

/-- `Line(s, l)` sets the line and appends the event (R9). -/
theorem line_eq (s : State) (id : LineId) (l : Bool) :
    s.line id l = { s with lines := s.lines.drive id l, trace := s.trace ++ [.line id l] } := rfl

/-- `Wait(n)` appends the event and changes no line (R9). -/
theorem wait_eq (s : State) (n : Nat) : s.wait n = { s with trace := s.trace ++ [.wait n] } := rfl

/-! ## Checks, results and readiness -/

theorem chk_of_le {v : Nat} (h : v ≤ Config.coordMax) (s : State) : chk v s = .ok v s := by
  simp only [chk, Nat.not_lt.mpr h, if_false]

theorem chk_of_gt {v : Nat} (h : Config.coordMax < v) (s : State) : chk v s = .overflow s := by
  simp only [chk, gt_iff_lt, h, if_true]

@[simp] theorem bind_ok {α β : Type} (a : α) (s : State) (f : α → State → Draw β) : (Draw.ok a s).bind f = f a s := rfl

@[simp] theorem bind_overflow {α β : Type} (s : State) (f : α → State → Draw β) :
    (Draw.overflow s : Draw α).bind f = .overflow s := rfl

@[simp] theorem state_ok {α : Type} (a : α) (s : State) : (Draw.ok a s).state = s := rfl

@[simp] theorem state_overflow {α : Type} (s : State) : (Draw.overflow s : Draw α).state = s := rfl

@[simp] theorem finish_ok {α : Type} (a : α) (s : State) (n : Nat) :
    (Draw.ok a s).finish n = .next (s.complete .ok n) := rfl

@[simp] theorem finish_overflow {α : Type} (s : State) (n : Nat) :
    (Draw.overflow s : Draw α).finish n = .next (raiseFault .coordOverflow s) := rfl

theorem whenReady_of_ready {s : State} (h : s.mode = .ready) (body : State → StepOutcome) :
    whenReady s body = body s := by simp [whenReady, h]

theorem whenReady_of_uninit {s : State} (h : s.mode = .uninit) (body : State → StepOutcome) :
    whenReady s body = .next (raiseFault .notReady s) := by simp [whenReady, h]

/-- The two ways a request but INIT begins (R98). -/
theorem whenReady_cases (s : State) (body : State → StepOutcome) :
    (s.mode = .ready ∧ whenReady s body = body s) ∨
      (s.mode = .uninit ∧ whenReady s body = .next (raiseFault .notReady s)) := by
  cases h : s.mode with
  | uninit => exact .inr ⟨rfl, whenReady_of_uninit h body⟩
  | ready => exact .inl ⟨rfl, whenReady_of_ready h body⟩

end Sys2Proof.Machine
end

