-- ==== Sys2Proof/Laws/Link.lean ====
section
/-!
SUPPORT. The link: what SendByte appends, what it leaves on the lines, and how the framing observer reads it.
-/

namespace Sys2Proof.Machine

/-! ## The events of one byte -/

/-- The three events of one bit (R65, R68). -/
def bitEvents (b : Bool) : List Event := [.line .clk false, .line .din b, .line .clk true]

/-- The bits of a byte, most significant first (R67). -/
def bitsOf (v : Byte) : List Bool :=
  [v.getLsbD 7, v.getLsbD 6, v.getLsbD 5, v.getLsbD 4, v.getLsbD 3, v.getLsbD 2, v.getLsbD 1, v.getLsbD 0]

theorem shiftOut_eight (v : Byte) : shiftOut 8 v = (bitsOf v).flatMap bitEvents := by
  simp [shiftOut, bitsOf, bitEvents]

theorem sendByteEvents_eq (v : Byte) (c : Bool) :
    sendByteEvents v c = .line .dc (modeSelect c) :: (bitsOf v).flatMap bitEvents := by
  rw [sendByteEvents, shiftOut_eight]

/-- SendByte appends 25 events (R65, R72). -/
@[simp] theorem sendByteEvents_length (v : Byte) (c : Bool) : (sendByteEvents v c).length = 25 := by
  simp [sendByteEvents_eq, bitsOf, bitEvents]

/-- The lines after one byte: CLK high, DIN at bit 0, DC at the mode-select level, RES as before (R72, R73). -/
theorem lines_after_sendByte (ls : Lines) (v : Byte) (c : Bool) :
    (sendByteEvents v c).foldl Lines.after ls =
      { ls with clk := .high, din := Level.ofBit (v.getLsbD 0), dc := Level.ofBit (modeSelect c) } := by
  simp [sendByteEvents_eq, bitsOf, bitEvents, Lines.after, Lines.drive]

/-! ## Framing -/

theorem byteOfBits_bitsOf (v : Byte) : byteOfBits (bitsOf v) = v := by
  have h : ∀ n : Fin 256, byteOfBits (bitsOf (BitVec.ofFin n)) = BitVec.ofFin n := by decide +kernel
  exact h v.toFin

/-- The pair the observer reads for a byte sent as a command or as data (R70, R72). -/
def linkPair (v : Byte) (c : Bool) : ByteKind × Byte := (if c then .cmd else .data, v)

/-- One byte read by the observer from a state with no partial byte: one pair more, and again no partial byte (R72). -/
theorem frame_sendByte (f : Framer) (h : f.bits = []) (v : Byte) (c : Bool) :
    (sendByteEvents v c).foldl Framer.event f =
      ⟨f.out ++ [linkPair v c], [], .high, Level.ofBit (v.getLsbD 0), Level.ofBit (modeSelect c)⟩ := by
  obtain ⟨out, bits, clk, din, dc⟩ := f
  subst h
  have hk : kindOf (Level.ofBit (modeSelect c)) = if c then .cmd else .data := by cases c <;> rfl
  have hv := byteOfBits_bitsOf v
  simp [bitsOf] at hv
  simp [sendByteEvents_eq, bitsOf, bitEvents, Framer.event, Framer.rise, hk, linkPair, hv]

/-- A sequence of link bytes: the value and whether it is a command. -/
theorem frame_bytes (f : Framer) (h : f.bits = []) (bs : List (Byte × Bool)) :
    ((bs.flatMap fun b => sendByteEvents b.1 b.2).foldl Framer.event f).out =
        f.out ++ bs.map (fun b => linkPair b.1 b.2) ∧
      ((bs.flatMap fun b => sendByteEvents b.1 b.2).foldl Framer.event f).bits = [] := by
  induction bs generalizing f with
  | nil => simp [h]
  | cons b bs ih =>
    simp only [List.flatMap_cons, List.foldl_append, frame_sendByte f h, List.map_cons]
    have := ih ⟨f.out ++ [linkPair b.1 b.2], [], .high, Level.ofBit (b.1.getLsbD 0), Level.ofBit (modeSelect b.2)⟩ rfl
    simpa using this

/-! ## Rising edges -/

/-- The level of CLK after a trace. -/
def clkAfter (clk : Level) (t : List Event) : Level := (t.foldl Framer.event ⟨[], [], clk, .x, .x⟩).clk

theorem frame_clk_congr (t : List Event) (f g : Framer) (h : f.clk = g.clk) :
    (t.foldl Framer.event f).clk = (t.foldl Framer.event g).clk := by
  induction t generalizing f g with
  | nil => exact h
  | cons e t ih =>
    refine ih _ _ ?_
    rcases e with ⟨id, l⟩ | n
    · cases id <;> simp [Framer.event, h]
    · exact h

theorem risingEdgesFrom_append (clk : Level) (t t' : List Event) :
    risingEdgesFrom clk (t ++ t') = risingEdgesFrom clk t + risingEdgesFrom (clkAfter clk t) t' := by
  induction t generalizing clk with
  | nil => simp [risingEdgesFrom, clkAfter]
  | cons e t ih =>
    have key : ∀ clk', (Framer.event ⟨[], [], clk, .x, .x⟩ e).clk = clk' →
        clkAfter clk (e :: t) = clkAfter clk' t := fun clk' h =>
      frame_clk_congr t _ _ h
    rcases e with ⟨id, l⟩ | n
    · cases id <;> simp only [List.cons_append, risingEdgesFrom, ih] <;>
        rw [key _ rfl] <;> simp only [Framer.event, Nat.add_assoc]
    · simp only [List.cons_append, risingEdgesFrom, ih]
      rw [key _ rfl]
      simp only [Framer.event]

/-- One byte makes exactly eight rising edges, whatever level CLK had (R68, R74). -/
@[simp] theorem risingEdgesFrom_sendByte (clk : Level) (v : Byte) (c : Bool) :
    risingEdgesFrom clk (sendByteEvents v c) = 8 := by
  simp [sendByteEvents_eq, bitsOf, bitEvents, risingEdgesFrom]

/-- Link bytes add a multiple of eight rising edges (R74). -/
theorem risingEdgesFrom_bytes (clk : Level) (bs : List (Byte × Bool)) :
    risingEdgesFrom clk (bs.flatMap fun b => sendByteEvents b.1 b.2) = 8 * bs.length := by
  induction bs generalizing clk with
  | nil => rfl
  | cons b bs ih =>
    simp only [List.flatMap_cons, risingEdgesFrom_append, risingEdgesFrom_sendByte, ih, List.length_cons]
    omega

/-- The observer's partial byte has as many bits as there are rising edges, modulo eight (R74). -/
theorem frame_bits_length (t : List Event) (f : Framer) (h : f.bits.length < 8) :
    (t.foldl Framer.event f).bits.length = (f.bits.length + risingEdgesFrom f.clk t) % 8 := by
  induction t generalizing f with
  | nil => simp only [List.foldl_nil, risingEdgesFrom]; omega
  | cons e t ih =>
    rcases e with ⟨id, l⟩ | n
    · cases id
      · by_cases hr : f.clk = .low ∧ l = true
        · have hl : (Framer.event f (.line .clk l)).bits.length = (f.bits.length + 1) % 8 := by
            simp only [Framer.event, hr, and_self, if_true, Framer.rise, List.length_append, List.length_singleton]
            split <;> simp <;> omega
          have hc : (Framer.event f (.line .clk l)).clk = Level.ofBit l := rfl
          rw [List.foldl_cons, ih _ (by omega), hl, hc]
          simp only [risingEdgesFrom, hr, and_self, if_true]
          omega
        · have hl : (Framer.event f (.line .clk l)).bits = f.bits := by simp [Framer.event, hr]
          have hc : (Framer.event f (.line .clk l)).clk = Level.ofBit l := rfl
          rw [List.foldl_cons, ih _ (by rw [hl]; exact h), hl, hc]
          simp only [risingEdgesFrom, hr, if_false, Nat.zero_add]
      all_goals
        rw [List.foldl_cons]
        exact ih _ h
    · exact ih f h

/-- No partial byte stands exactly when the rising edges are a multiple of eight (R74). -/
theorem frameTrace_bits_nil_iff (t : List Event) : (frameTrace t).bits = [] ↔ 8 ∣ risingEdges t := by
  have := frame_bits_length t Framer.start (by simp [Framer.start])
  rw [← List.length_eq_zero_iff, frameTrace, this]
  simp only [Framer.start, List.length_nil, Nat.zero_add, risingEdges]
  omega

/-- Link bytes appended to a trace with no partial byte append exactly their pairs to the decoded stream (R72, R74). -/
theorem decoded_append_bytes (t : List Event) (h : 8 ∣ risingEdges t) (bs : List (Byte × Bool)) :
    decoded (t ++ bs.flatMap fun b => sendByteEvents b.1 b.2) =
      decoded t ++ bs.map fun b => linkPair b.1 b.2 := by
  simp only [decoded, frameTrace, List.foldl_append]
  exact (frame_bytes _ ((frameTrace_bits_nil_iff t).mpr h) bs).1

/-- Link bytes keep the number of rising edges a multiple of eight (R74). -/
theorem framed_append_bytes (t : List Event) (h : 8 ∣ risingEdges t) (bs : List (Byte × Bool)) :
    8 ∣ risingEdges (t ++ bs.flatMap fun b => sendByteEvents b.1 b.2) := by
  rw [risingEdges, risingEdgesFrom_append, risingEdgesFrom_bytes]
  exact Nat.dvd_add h (Nat.dvd_mul_right 8 _)

/-- Link bytes never drive RES (R73), and a last byte leaves the lines as R72 says. -/
theorem lines_after_bytes_res (ls : Lines) (bs : List (Byte × Bool)) :
    ((bs.flatMap fun b => sendByteEvents b.1 b.2).foldl Lines.after ls).res = ls.res := by
  induction bs generalizing ls with
  | nil => rfl
  | cons b bs ih => simp [List.foldl_append, ih, lines_after_sendByte]

end Sys2Proof.Machine
end

