-- ==== Sys2Proof/Laws/Frame.lean ====
section
/-!
SUPPORT. The framebuffer operations: the address mapper in terms of bits, what SetPixelCore does to every pixel and every
byte, and what RefreshCore appends.
-/

namespace Sys2Proof.Machine

/-! ## The mapper -/

@[simp] theorem pixelMap_column (x : Column) (y : Row) : (pixelMap x y).column = x := rfl
@[simp] theorem pixelMap_page_val (x : Column) (y : Row) : (pixelMap x y).page.val = 7 - y.val / 8 := rfl

/-- The number of the bit that holds a row in its byte (R30). -/
def rowBit (y : Row) : Nat := 7 - y.val % 8

theorem rowBit_lt (y : Row) : rowBit y < 8 := by simp only [rowBit]; omega

theorem mask_getLsbD (x : Column) (y : Row) (j : Nat) (hj : j < 8) :
    (pixelMap x y).mask.getLsbD j = decide (j = rowBit y) := by
  have h : ∀ (j k : Fin 8), ((1 : Byte) <<< k.val).getLsbD j.val = decide (j.val = k.val) := by decide
  exact h ⟨j, hj⟩ ⟨rowBit y, rowBit_lt y⟩

/-- Two pixels of one column and one page are two bits of that byte (R30). -/
theorem row_eq_of_page_bit {y y' : Row} (hp : 7 - y.val / 8 = 7 - y'.val / 8) (hb : rowBit y = rowBit y') : y = y' := by
  simp only [rowBit] at hb
  exact Fin.ext (by omega)

/-- PixelAt reads one bit of one byte (R30, R31). -/
theorem pixelAt_eq_bit (s : State) (x : Column) (y : Row) :
    s.pixelAt x y = (s.fbByte x (pixelMap x y).page).getLsbD (rowBit y) := by
  have h : ∀ (b : Fin 256) (k : Fin 8),
      decide ((BitVec.ofFin b : Byte) &&& (1 : Byte) <<< k.val ≠ 0) = (BitVec.ofFin b : Byte).getLsbD k.val := by
    decide +kernel
  exact h (s.fbByte x (pixelMap x y).page).toFin ⟨rowBit y, rowBit_lt y⟩

/-! ## SetPixelCore -/

/-- The byte a pixel write stores (R80). -/
def pixelByte (s : State) (x : Column) (y : Row) (on : Bool) : Byte :=
  if on then s.fbByte x (pixelMap x y).page ||| (pixelMap x y).mask
  else s.fbByte x (pixelMap x y).page &&& ~~~(pixelMap x y).mask

theorem writePixel_eq (s : State) (x : Column) (y : Row) (on : Bool) :
    s.writePixel x y on = s.setFbByte x (pixelMap x y).page (pixelByte s x y on) := rfl

theorem pixelByte_getLsbD (s : State) (x : Column) (y : Row) (on : Bool) (j : Nat) (hj : j < 8) :
    (pixelByte s x y on).getLsbD j =
      if j = rowBit y then on else (s.fbByte x (pixelMap x y).page).getLsbD j := by
  have hm := mask_getLsbD x y j hj
  cases on <;> by_cases h : j = rowBit y <;> simp_all [pixelByte, rowBit_lt]

/-- A pixel write sets its own pixel and no other (R80). -/
theorem writePixel_pixelAt (s : State) (x x' : Column) (y y' : Row) (on : Bool) :
    (s.writePixel x y on).pixelAt x' y' = if x = x' ∧ y = y' then on else s.pixelAt x' y' := by
  rw [pixelAt_eq_bit, pixelAt_eq_bit, writePixel_eq, setFbByte_fbByte]
  by_cases hb : x = x' ∧ (pixelMap x y).page = (pixelMap x' y').page
  · obtain ⟨rfl, hp⟩ := hb
    rw [if_pos ⟨rfl, hp⟩, pixelByte_getLsbD _ _ _ _ _ (rowBit_lt y')]
    have hpv : 7 - y.val / 8 = 7 - y'.val / 8 := congrArg Fin.val hp
    by_cases hr : rowBit y' = rowBit y
    · have := row_eq_of_page_bit hpv hr.symm
      simp [hr, this]
    · have hy : y ≠ y' := by rintro rfl; exact hr rfl
      simp [hr, hy, hp]
  · have : ¬(x = x' ∧ y = y') := by rintro ⟨rfl, rfl⟩; exact hb ⟨rfl, rfl⟩
    simp [hb, this]

/-- A pixel write stores to one byte: every other byte reads as before (R35, R80). -/
theorem writePixel_fbCell_ne (s : State) (x c : Column) (y : Row) (p : Page) (on : Bool)
    (h : ¬(x = c ∧ (pixelMap x y).page = p)) : (s.writePixel x y on).fbCell c p = s.fbCell c p := by
  rw [writePixel_eq, setFbByte_fbCell, if_neg h]

theorem setPixelCore_of_in {x y : Nat} (hx : x ≤ 127) (hy : y ≤ 63) (on : Bool) (s : State) :
    setPixelCore x y on s = s.writePixel ⟨x, by omega⟩ ⟨y, by omega⟩ on := by
  simp [setPixelCore, hx, hy]

theorem setPixelCore_of_out {x y : Nat} (h : ¬(x ≤ 127 ∧ y ≤ 63)) (on : Bool) (s : State) :
    setPixelCore x y on s = s := by
  simp only [setPixelCore, h, dif_neg, not_false_eq_true]

/-- SetPixelCore changes nothing but the framebuffer (R80). -/
theorem setPixelCore_eq (x y : Nat) (on : Bool) (s : State) :
    setPixelCore x y on s = { s with fb := (setPixelCore x y on s).fb } := by
  by_cases h : x ≤ 127 ∧ y ≤ 63
  · rw [setPixelCore_of_in h.1 h.2]; rfl
  · rw [setPixelCore_of_out h]

/-- SetPixelCore on every pixel of the display (R80). -/
theorem setPixelCore_pixelAt (x y : Nat) (on : Bool) (s : State) (x' : Column) (y' : Row) :
    (setPixelCore x y on s).pixelAt x' y' = if x = x'.val ∧ y = y'.val then on else s.pixelAt x' y' := by
  by_cases h : x ≤ 127 ∧ y ≤ 63
  · rw [setPixelCore_of_in h.1 h.2, writePixel_pixelAt]
    simp only [Fin.ext_iff]
  · rw [setPixelCore_of_out h, if_neg]
    rintro ⟨rfl, rfl⟩
    omega

/-- SetPixelCore keeps the canonical form. -/
theorem setPixelCore_wf (x y : Nat) (on : Bool) (s : State) (h : Memory.wf s.fb = true) :
    Memory.wf (setPixelCore x y on s).fb = true := by
  by_cases hr : x ≤ 127 ∧ y ≤ 63
  · rw [setPixelCore_of_in hr.1 hr.2]
    exact wf_write _ h (fbaddr_lt _ _)
  · rwa [setPixelCore_of_out hr]

/-- SetPixelCore un-writes no byte. -/
theorem setPixelCore_written (x y : Nat) (on : Bool) (s : State) (c : Column) (p : Page) (h : s.fbCell c p ≠ none) :
    (setPixelCore x y on s).fbCell c p ≠ none := by
  by_cases hr : x ≤ 127 ∧ y ≤ 63
  · rw [setPixelCore_of_in hr.1 hr.2, writePixel_eq, setFbByte_fbCell]
    split
    · simp
    · exact h
  · rwa [setPixelCore_of_out hr]

/-! ## RefreshCore -/

/-- The bytes RefreshCore sends for one page: the value and whether it is a command (R82). -/
def pageBytes (s : State) (p : Page) : List (Byte × Bool) :=
  [(s.params.pageSel.get p, true), (s.params.colLo, true), (s.params.colHi, true)] ++
    (List.finRange 128).map fun c => (s.fbByte c p, false)

/-- The bytes RefreshCore sends (R82). -/
def refreshSent (s : State) : List (Byte × Bool) := (List.finRange 8).flatMap (pageBytes s)

/-- RefreshCore's events are the events of its bytes, in order (R82). -/
theorem refreshEvents_eq (s : State) :
    refreshEvents s = (refreshSent s).flatMap fun b => sendByteEvents b.1 b.2 := by
  simp only [refreshEvents, refreshSent, pageBytes, pageHeaderEvents, pageDataEvents, List.flatMap_assoc,
    List.flatMap_append, List.flatMap_cons, List.flatMap_nil, List.append_nil, List.flatMap_map, List.append_assoc]

/-- The decoded stream of one RefreshCore (R82, R85). -/
theorem refreshSent_pairs (s : State) : (refreshSent s).map (fun b => linkPair b.1 b.2) = refreshBytes s := by
  simp only [refreshSent, refreshBytes, pageBytes, List.map_flatMap, List.map_append, List.map_cons, List.map_nil,
    List.map_map]
  rfl

theorem length_flatMap_const {α β : Type} (l : List α) (f : α → List β) (n : Nat) (h : ∀ a ∈ l, (f a).length = n) :
    (l.flatMap f).length = n * l.length := by
  induction l with
  | nil => rfl
  | cons a l ih =>
    rw [List.flatMap_cons, List.length_append, h a (by simp), ih fun b hb => h b (by simp [hb]), List.length_cons,
      Nat.mul_succ, Nat.add_comm]

/-- RefreshCore sends 1048 bytes (R82). -/
@[simp] theorem refreshSent_length (s : State) : (refreshSent s).length = 1048 := by
  rw [refreshSent, length_flatMap_const _ _ 131 (by simp [pageBytes])]
  simp

theorem bytes_events_length (bs : List (Byte × Bool)) :
    (bs.flatMap fun b => sendByteEvents b.1 b.2).length = 25 * bs.length :=
  length_flatMap_const _ _ 25 (by simp)

/-- RefreshCore appends 26,200 events (R82, R118). -/
@[simp] theorem refreshEvents_length (s : State) : (refreshEvents s).length = 26200 := by
  rw [refreshEvents_eq, bytes_events_length, refreshSent_length]

/-- RefreshCore reads only the framebuffer's bytes and the addressing parameters (R82). -/
theorem refreshEvents_congr {s t : State} (hp : s.params = t.params) (hb : ∀ c p, s.fbByte c p = t.fbByte c p) :
    refreshEvents s = refreshEvents t := by
  simp only [refreshEvents, pageHeaderEvents, pageDataEvents, hp, hb]

/-- RefreshCore ends with the data byte of column 127 of page 7 (R82). -/
theorem refreshEvents_last (s : State) :
    ∃ es : List (Byte × Bool),
      refreshEvents s = (es.flatMap fun b => sendByteEvents b.1 b.2) ++ sendByteEvents (s.fbByte 127 7) false := by
  have h : refreshSent s = (refreshSent s).dropLast ++ [(s.fbByte 127 7, false)] := by
    have hl : (refreshSent s).getLast? = some (s.fbByte 127 7, false) := by
      have h8 : List.finRange 8 = (List.finRange 8).dropLast ++ [7] := by decide
      have h128 : List.finRange 128 = (List.finRange 128).dropLast ++ [127] := by decide +kernel
      rw [refreshSent, h8, List.flatMap_append, List.flatMap_singleton, pageBytes, h128, List.map_append,
        List.map_singleton, ← List.append_assoc, ← List.append_assoc, List.getLast?_concat]
    have hne : refreshSent s ≠ [] := by
      intro h0
      simp [h0] at hl
    rw [List.getLast?_eq_some_getLast hne, Option.some_inj] at hl
    rw [← hl]
    exact (List.dropLast_append_getLast hne).symm
  refine ⟨(refreshSent s).dropLast, ?_⟩
  rw [refreshEvents_eq]
  conv_lhs => rw [h]
  simp

/-- The lines after RefreshCore (R72, R78): CLK high, DIN at bit 0 of the last byte, DC at the data level, RES as
before. -/
theorem lines_after_refresh (s : State) (ls : Lines) :
    (refreshEvents s).foldl Lines.after ls =
      ⟨.high, Level.ofBit ((s.fbByte 127 7).getLsbD 0), ls.res, Level.ofBit (modeSelect false)⟩ := by
  obtain ⟨es, h⟩ := refreshEvents_last s
  rw [h, List.foldl_append, lines_after_sendByte, lines_after_bytes_res]

end Sys2Proof.Machine
end

