-- ==== Sys2Proof/Laws/Drawing.lean ====
section
/-!
SUPPORT. The composite drawing operations: what they leave alone, when a glyph overflows, and what it draws.
-/

namespace Sys2Proof.Machine

theorem fontHeight_pos (font : Font) : 0 < fontHeight font := by cases font <;> decide

theorem fontHeight_le (font : Font) : fontHeight font ≤ 16 := by cases font <;> decide

/-! ## What drawing leaves alone -/

/-- `t` is `s` but for its framebuffer, whose canonical form and whose written bytes are kept (R35, R40). -/
structure OnlyFb (s t : State) : Prop where
  eq : t = { s with fb := t.fb }
  wf : Memory.wf s.fb = true → Memory.wf t.fb = true
  written : ∀ c p, s.fbCell c p ≠ none → t.fbCell c p ≠ none

theorem OnlyFb.refl (s : State) : OnlyFb s s := ⟨rfl, id, fun _ _ => id⟩

theorem OnlyFb.trans {s t u : State} (h : OnlyFb s t) (k : OnlyFb t u) : OnlyFb s u := by
  refine ⟨?_, k.wf ∘ h.wf, fun c p hc => k.written c p (h.written c p hc)⟩
  rw [k.eq, h.eq]

theorem OnlyFb.mode {s t : State} (h : OnlyFb s t) : t.mode = s.mode := by rw [h.eq]
theorem OnlyFb.fault {s t : State} (h : OnlyFb s t) : t.fault = s.fault := by rw [h.eq]
theorem OnlyFb.rp {s t : State} (h : OnlyFb s t) : t.rp = s.rp := by rw [h.eq]
theorem OnlyFb.lines {s t : State} (h : OnlyFb s t) : t.lines = s.lines := by rw [h.eq]
theorem OnlyFb.trace {s t : State} (h : OnlyFb s t) : t.trace = s.trace := by rw [h.eq]
theorem OnlyFb.resp {s t : State} (h : OnlyFb s t) : t.resp = s.resp := by rw [h.eq]
theorem OnlyFb.stream {s t : State} (h : OnlyFb s t) : t.stream = s.stream := by rw [h.eq]
theorem OnlyFb.params {s t : State} (h : OnlyFb s t) : t.params = s.params := by rw [h.eq]

theorem setPixelCore_onlyFb (x y : Nat) (on : Bool) (s : State) : OnlyFb s (setPixelCore x y on s) :=
  ⟨setPixelCore_eq x y on s, setPixelCore_wf x y on s, setPixelCore_written x y on s⟩

theorem zeroFB_onlyFb (s : State) : OnlyFb s (zeroFB s) :=
  ⟨rfl, fun _ => wf_zero, fun c p _ => by simp⟩

/-- A sequence of two pieces changes only the framebuffer if each does. -/
theorem bind_onlyFb {α β : Type} {s : State} {d : Draw α} {f : α → State → Draw β} (hd : OnlyFb s d.state)
    (hf : ∀ a t, OnlyFb t (f a t).state) : OnlyFb s (d.bind f).state := by
  cases d with
  | ok a t => exact hd.trans (hf a t)
  | overflow t => exact hd

theorem chk_onlyFb (v : Nat) (s : State) : OnlyFb s (chk v s).state := by
  unfold chk
  split <;> exact OnlyFb.refl s

theorem glyphBits_onlyFb (brk : Bool) (h y0 : Nat) (normal : Bool) (k : Nat) (tmp : Byte) (cur : Cursor) (s : State) :
    OnlyFb s (glyphBits brk h y0 normal k tmp cur s).state := by
  induction k generalizing tmp cur s with
  | zero => exact OnlyFb.refl s
  | succ k ih =>
    refine (setPixelCore_onlyFb _ _ _ s).trans (bind_onlyFb (chk_onlyFb _ _) fun y t => ?_)
    split
    · refine bind_onlyFb (chk_onlyFb _ _) fun x t => ?_
      split
      · exact OnlyFb.refl t
      · exact ih _ _ _
    · exact ih _ _ _

theorem glyphBytes_onlyFb (brk : Bool) (font : Font) (ch : Byte) (y0 : Nat) (normal : Bool) (n t : Nat) (cur : Cursor)
    (s : State) : OnlyFb s (glyphBytes brk font ch y0 normal n t cur s).state := by
  induction n generalizing t cur s with
  | zero => exact OnlyFb.refl s
  | succ n ih => exact bind_onlyFb (glyphBits_onlyFb _ _ _ _ _ _ _ _) fun _ _ => ih _ _ _

/-- A glyph changes only the framebuffer, whether it completes or overflows (R40, R89). -/
theorem drawGlyphCore_onlyFb (x0 y0 : Nat) (ch : Byte) (font : Font) (normal : Bool) (s : State) :
    OnlyFb s (drawGlyphCore x0 y0 ch font normal s).state :=
  glyphBytes_onlyFb _ _ _ _ _ _ _ _ _

/-- The digits of a number change only the framebuffer (R40, R91). -/
theorem numberDigits_onlyFb (x0 y0 v n : Nat) (font : Font) (k t : Nat) (s : State) :
    OnlyFb s (numberDigits x0 y0 v n font k t s).state := by
  induction k generalizing t s with
  | zero => exact OnlyFb.refl s
  | succ k ih =>
    exact bind_onlyFb (chk_onlyFb _ _) fun _ _ => bind_onlyFb (drawGlyphCore_onlyFb _ _ _ _ _ _) fun _ _ => ih _ _

/-! ## Pixels outside the display -/

/-- Outside the display a glyph's pixels are dropped: the state is as before, whether the glyph completes or overflows
(R88, R99). -/
theorem glyphBits_out (brk : Bool) (h y0 x0 : Nat) (normal : Bool) (ho : 127 < x0 ∨ 63 < y0) (k : Nat) (tmp : Byte)
    (cur : Cursor) (hx : x0 ≤ cur.x) (hy : y0 ≤ cur.y) (s : State) :
    (glyphBits brk h y0 normal k tmp cur s).state = s ∧
      ∀ cur' s', glyphBits brk h y0 normal k tmp cur s = .ok cur' s' → x0 ≤ cur'.x ∧ y0 ≤ cur'.y := by
  induction k generalizing tmp cur with
  | zero =>
    refine ⟨rfl, fun cur' s' he => ?_⟩
    cases he
    exact ⟨hx, hy⟩
  | succ k ih =>
    have hp : ∀ on, setPixelCore cur.x cur.y on s = s := fun on => setPixelCore_of_out (by omega) on s
    simp only [glyphBits, hp]
    by_cases h1 : cur.y + 1 ≤ Config.coordMax
    · rw [chk_of_le h1, bind_ok]
      by_cases h2 : cur.y + 1 - y0 = h
      · rw [if_pos h2]
        by_cases h3 : cur.x + 1 ≤ Config.coordMax
        · rw [chk_of_le h3, bind_ok]
          cases brk with
          | true =>
            refine ⟨rfl, fun cur' s' he => ?_⟩
            cases he
            exact ⟨Nat.le_succ_of_le hx, le_refl _⟩
          | false => exact ih _ _ (Nat.le_succ_of_le hx) (le_refl _)
        · rw [chk_of_gt (by omega)]
          exact ⟨rfl, fun _ _ he => by cases he⟩
      · rw [if_neg h2]
        exact ih _ _ hx (Nat.le_succ_of_le hy)
    · rw [chk_of_gt (by omega)]
      exact ⟨rfl, fun _ _ he => by cases he⟩

theorem glyphBytes_out (brk : Bool) (font : Font) (ch : Byte) (y0 x0 : Nat) (normal : Bool) (ho : 127 < x0 ∨ 63 < y0)
    (n t : Nat) (cur : Cursor) (hx : x0 ≤ cur.x) (hy : y0 ≤ cur.y) (s : State) :
    (glyphBytes brk font ch y0 normal n t cur s).state = s := by
  induction n generalizing t cur with
  | zero => rfl
  | succ n ih =>
    have hb := glyphBits_out brk (fontHeight font) y0 x0 normal ho 8 (glyphByte s.params font ch t) cur hx hy s
    rw [glyphBytes]
    cases hd : glyphBits brk (fontHeight font) y0 normal 8 (glyphByte s.params font ch t) cur s with
    | ok cur' s' =>
      rw [hd] at hb
      obtain rfl : s' = s := hb.1
      exact ih _ _ (hb.2 _ _ rfl).1 (hb.2 _ _ rfl).2
    | overflow s' =>
      rw [hd] at hb
      exact hb.1

/-- A glyph that begins outside the display changes nothing (R88). -/
theorem drawGlyphCore_out (x0 y0 : Nat) (ch : Byte) (font : Font) (normal : Bool) (ho : 127 < x0 ∨ 63 < y0)
    (s : State) : (drawGlyphCore x0 y0 ch font normal s).state = s :=
  glyphBytes_out _ _ _ _ x0 _ ho _ _ _ (le_refl _) (le_refl _) s

/-! ## Where a glyph's bits land -/

/-- The pixel of bit i of a glyph at (x0, y0) of height h (R88). -/
def bitCursor (x0 y0 h i : Nat) : Cursor := ⟨x0 + i / h, y0 + i % h⟩

/-- The state after the bits n, n + 1, ..., n + k - 1 of a glyph have been drawn: bit i is `f i` (R88). -/
def drawBits (x0 y0 h : Nat) (normal : Bool) (f : Nat → Bool) (n k : Nat) (s : State) : State :=
  (List.range' n k).foldl (fun s i => setPixelCore (x0 + i / h) (y0 + i % h) (if normal then f i else !f i) s) s

theorem div_mod_succ {i h : Nat} (hh : 0 < h) :
    (i % h + 1 = h ∧ (i + 1) / h = i / h + 1 ∧ (i + 1) % h = 0) ∨
      (i % h + 1 < h ∧ (i + 1) / h = i / h ∧ (i + 1) % h = i % h + 1) := by
  have hi := Nat.div_add_mod i h
  have hm := Nat.mod_lt i hh
  by_cases he : i % h + 1 = h
  · refine .inl ⟨he, ?_, ?_⟩
    · have : i + 1 = h * (i / h + 1) := by rw [Nat.mul_succ]; omega
      rw [this, Nat.mul_div_cancel_left _ hh]
    · have : i + 1 = h * (i / h + 1) := by rw [Nat.mul_succ]; omega
      rw [this, Nat.mul_mod_right]
  · refine .inr ⟨by omega, ?_, ?_⟩
    · have : i + 1 = (i % h + 1) + h * (i / h) := by omega
      rw [this, Nat.add_mul_div_left _ _ hh, Nat.div_eq_of_lt (by omega), Nat.zero_add]
    · have : i + 1 = (i % h + 1) + h * (i / h) := by omega
      rw [this, Nat.add_mul_mod_self_left, Nat.mod_eq_of_lt (by omega)]

/-- One bit: drawn, and the cursor at the next bit, or an overflow (R88). -/
theorem glyphBits_step (h x0 y0 : Nat) (hh : 0 < h) (normal : Bool) (k : Nat) (tmp : Byte) (n : Nat) (s : State) :
    glyphBits false h y0 normal (k + 1) tmp (bitCursor x0 y0 h n) s =
      let s' := setPixelCore (x0 + n / h) (y0 + n % h) (if normal then tmp.getLsbD 7 else !tmp.getLsbD 7) s
      if y0 + n % h + 1 ≤ Config.coordMax ∧ (n % h + 1 = h → x0 + (n + 1) / h ≤ Config.coordMax) then
        glyphBits false h y0 normal k (tmp <<< 1) (bitCursor x0 y0 h (n + 1)) s'
      else .overflow s' := by
  simp only [glyphBits, bitCursor]
  generalize (if normal then tmp.getLsbD 7 else !tmp.getLsbD 7) = on
  simp only [Bool.false_eq_true, if_false]
  by_cases h1 : y0 + n % h + 1 ≤ Config.coordMax
  · rw [chk_of_le h1, bind_ok]
    rcases div_mod_succ (i := n) hh with ⟨he, hd, hm⟩ | ⟨he, hd, hm⟩
    · rw [if_pos (by omega)]
      by_cases h3 : x0 + n / h + 1 ≤ Config.coordMax
      · have : x0 + (n + 1) / h ≤ Config.coordMax := by omega
        rw [chk_of_le h3, bind_ok, if_pos ⟨h1, fun _ => this⟩, hd, hm]
        rfl
      · have : ¬(x0 + (n + 1) / h ≤ Config.coordMax) := by omega
        rw [chk_of_gt (by omega), bind_overflow, if_neg fun hc => this (hc.2 he)]
    · rw [if_neg (by omega), if_pos ⟨h1, fun hc => by omega⟩, hd, hm]
      rfl
  · rw [chk_of_gt (by omega), bind_overflow, if_neg fun hc => h1 hc.1]

theorem drawBits_succ (x0 y0 h : Nat) (normal : Bool) (f : Nat → Bool) (n k : Nat) (s : State) :
    drawBits x0 y0 h normal f n (k + 1) s =
      drawBits x0 y0 h normal f (n + 1) k
        (setPixelCore (x0 + n / h) (y0 + n % h) (if normal then f n else !f n) s) := by
  simp [drawBits, List.range'_succ]

theorem drawBits_add (x0 y0 h : Nat) (normal : Bool) (f : Nat → Bool) (n k l : Nat) (s : State) :
    drawBits x0 y0 h normal f n (k + l) s = drawBits x0 y0 h normal f (n + k) l (drawBits x0 y0 h normal f n k s) := by
  rw [drawBits, ← List.range'_append_1, List.foldl_append]
  rfl

theorem drawBits_onlyFb (x0 y0 h : Nat) (normal : Bool) (f : Nat → Bool) (n k : Nat) (s : State) :
    OnlyFb s (drawBits x0 y0 h normal f n k s) := by
  induction k generalizing n s with
  | zero => exact OnlyFb.refl s
  | succ k ih =>
    rw [drawBits_succ]
    exact (setPixelCore_onlyFb _ _ _ s).trans (ih _ _)

/-- Bits that pass every check are all drawn (R88). -/
theorem glyphBits_ok (h x0 y0 : Nat) (hh : 0 < h) (normal : Bool) (f : Nat → Bool) (hy : y0 + h ≤ Config.coordMax)
    (k : Nat) (tmp : Byte) (n : Nat) (hx : x0 + (n + k) / h ≤ Config.coordMax) (hk : k ≤ 8)
    (hf : ∀ i, i < k → tmp.getLsbD (7 - i) = f (n + i)) (s : State) :
    glyphBits false h y0 normal k tmp (bitCursor x0 y0 h n) s =
      .ok (bitCursor x0 y0 h (n + k)) (drawBits x0 y0 h normal f n k s) := by
  induction k generalizing tmp n s with
  | zero => rfl
  | succ k ih =>
    have hm := Nat.mod_lt n hh
    have hle : (n + 1) / h ≤ (n + (k + 1)) / h := Nat.div_le_div_right (by omega)
    rw [glyphBits_step h x0 y0 hh]
    simp only
    rw [if_pos ⟨by omega, fun _ => by omega⟩, ih (tmp <<< 1) (n + 1) (by rw [Nat.add_right_comm, Nat.add_assoc]; exact hx)
      (by omega), drawBits_succ]
    · rw [show tmp.getLsbD 7 = f n from hf 0 (by omega), Nat.add_right_comm, Nat.add_assoc]
    · intro i hi
      have h7 : ¬(7 - i < 1) := by omega
      rw [BitVec.getLsbD_shiftLeft, show 7 - i - 1 = 7 - (i + 1) by omega, hf (i + 1) (by omega)]
      have : 7 - i < 8 := by omega
      simp [h7, this, Nat.add_comm, Nat.add_left_comm]

/-- Bits that were all drawn had passed every check (R88). -/
theorem glyphBits_checks (h x0 y0 : Nat) (hh : 0 < h) (normal : Bool) (k : Nat) (tmp : Byte) (n : Nat) (s : State)
    {cur : Cursor} {s' : State} (he : glyphBits false h y0 normal k tmp (bitCursor x0 y0 h n) s = .ok cur s') :
    cur = bitCursor x0 y0 h (n + k) ∧
      ∀ i, n ≤ i → i < n + k →
        y0 + i % h + 1 ≤ Config.coordMax ∧ (i % h + 1 = h → x0 + (i + 1) / h ≤ Config.coordMax) := by
  induction k generalizing tmp n s with
  | zero =>
    cases he
    exact ⟨rfl, fun i h1 h2 => by omega⟩
  | succ k ih =>
    rw [glyphBits_step h x0 y0 hh] at he
    simp only at he
    split at he
    · rename_i hc
      obtain ⟨h1, h2⟩ := ih _ _ _ he
      refine ⟨by rw [h1]; congr 1; omega, fun i hi1 hi2 => ?_⟩
      by_cases hin : i = n
      · rw [hin]; exact hc
      · exact h2 i (by omega) (by omega)
    · cases he

theorem glyphBytes_ok (font : Font) (ch : Byte) (x0 y0 : Nat) (normal : Bool)
    (hy : y0 + fontHeight font ≤ Config.coordMax) (n t : Nat) (hx : x0 + (8 * t + 8 * n) / fontHeight font ≤ Config.coordMax)
    (s : State) :
    glyphBytes false font ch y0 normal n t (bitCursor x0 y0 (fontHeight font) (8 * t)) s =
      .ok (bitCursor x0 y0 (fontHeight font) (8 * t + 8 * n))
        (drawBits x0 y0 (fontHeight font) normal (glyphBit s.params font ch) (8 * t) (8 * n) s) := by
  induction n generalizing t s with
  | zero => rfl
  | succ n ih =>
    have hx1 : x0 + (8 * t + 8) / fontHeight font ≤ Config.coordMax :=
      le_trans (Nat.add_le_add_left (Nat.div_le_div_right (by omega)) x0) hx
    rw [glyphBytes, glyphBits_ok (fontHeight font) x0 y0 (fontHeight_pos font) normal (glyphBit s.params font ch) hy 8 _
      (8 * t) hx1 (by omega), bind_ok]
    · have h8 : 8 * t + 8 = 8 * (t + 1) := by omega
      rw [h8, ih (t + 1) (by rw [show 8 * (t + 1) + 8 * n = 8 * t + 8 * (n + 1) by omega]; exact hx),
        (drawBits_onlyFb _ _ _ _ _ _ _ s).params, ← h8, ← drawBits_add]
      congr 2
      · omega
      · omega
    · intro i hi
      rw [glyphBit, show (8 * t + i) / 8 = t by omega, show (8 * t + i) % 8 = i by omega]

/-- A glyph none of whose coordinates passes COORD_MAX completes, and draws all its bits (R88, R89). -/
theorem drawGlyphCore_ok (x0 y0 : Nat) (ch : Byte) (font : Font) (normal : Bool) (hx : x0 + 8 ≤ Config.coordMax)
    (hy : y0 + fontHeight font ≤ Config.coordMax) (s : State) :
    drawGlyphCore x0 y0 ch font normal s =
      .ok ⟨x0 + 8, y0⟩
        (drawBits x0 y0 (fontHeight font) normal (glyphBit s.params font ch) 0 (8 * fontHeight font) s) := by
  have hh := fontHeight_pos font
  have hd : (8 * 0 + 8 * fontHeight font) / fontHeight font = 8 := by
    rw [Nat.mul_zero, Nat.zero_add, Nat.mul_div_cancel _ hh]
  have := glyphBytes_ok font ch x0 y0 normal hy (fontHeight font) 0 (by rw [hd]; exact hx) s
  simp only [bitCursor, Nat.mul_zero, Nat.zero_div, Nat.zero_mod, Nat.add_zero, Nat.zero_add,
    Nat.mul_div_cancel _ hh, Nat.mul_mod_left] at this
  exact this

theorem glyphBytes_checks (font : Font) (ch : Byte) (x0 y0 : Nat) (normal : Bool) (n t : Nat) (s : State)
    {cur : Cursor} {s' : State}
    (he : glyphBytes false font ch y0 normal n t (bitCursor x0 y0 (fontHeight font) (8 * t)) s = .ok cur s') :
    ∀ i, 8 * t ≤ i → i < 8 * t + 8 * n →
      y0 + i % fontHeight font + 1 ≤ Config.coordMax ∧
        (i % fontHeight font + 1 = fontHeight font → x0 + (i + 1) / fontHeight font ≤ Config.coordMax) := by
  induction n generalizing t s with
  | zero => intro i h1 h2; omega
  | succ n ih =>
    rw [glyphBytes] at he
    cases hd : glyphBits false (fontHeight font) y0 normal 8 (glyphByte s.params font ch t)
        (bitCursor x0 y0 (fontHeight font) (8 * t)) s with
    | ok cur1 s1 =>
      obtain ⟨rfl, hc⟩ := glyphBits_checks _ x0 y0 (fontHeight_pos font) normal 8 _ _ s hd
      rw [hd, bind_ok, show 8 * t + 8 = 8 * (t + 1) by omega] at he
      intro i h1 h2
      by_cases hi : i < 8 * t + 8
      · exact hc i h1 hi
      · exact ih (t + 1) s1 he i (by omega) (by omega)
    | overflow s1 =>
      rw [hd] at he
      cases he

/-- A glyph with a coordinate above COORD_MAX overflows, and has changed nothing: every pixel it wrote was out of range
(R89, R99). -/
theorem drawGlyphCore_overflow (x0 y0 : Nat) (ch : Byte) (font : Font) (normal : Bool)
    (ho : Config.coordMax < x0 + 8 ∨ Config.coordMax < y0 + fontHeight font) (s : State) :
    drawGlyphCore x0 y0 ch font normal s = .overflow s := by
  have hh := fontHeight_pos font
  have hl := fontHeight_le font
  have hstate := drawGlyphCore_out x0 y0 ch font normal (by simp only [Config.coordMax] at ho; omega) s
  cases hd : drawGlyphCore x0 y0 ch font normal s with
  | overflow s' => rw [hd] at hstate; exact congrArg _ hstate
  | ok cur s' =>
    exfalso
    have hstart : (⟨x0, y0⟩ : Cursor) = bitCursor x0 y0 (fontHeight font) (8 * 0) := by simp [bitCursor]
    rw [drawGlyphCore, drawGlyphWith, hstart] at hd
    have hc := glyphBytes_checks font ch x0 y0 normal _ 0 s hd (8 * fontHeight font - 1) (by omega) (by omega)
    have hm : (8 * fontHeight font - 1) % fontHeight font = fontHeight font - 1 := by cases font <;> rfl
    have hq : (8 * fontHeight font - 1 + 1) / fontHeight font = 8 := by cases font <;> rfl
    rw [hm, hq] at hc
    have := hc.2 (by omega)
    omega

/-! ## The pixels of a glyph -/

/-- Bit n of a glyph is the pixel (X, Y) exactly when (X, Y) is the n-th pixel of the glyph's cell (R88). -/
theorem bit_pixel_iff {x0 y0 h n X Y : Nat} (hh : 0 < h) :
    (x0 + n / h = X ∧ y0 + n % h = Y) ↔
      x0 ≤ X ∧ y0 ≤ Y ∧ Y < y0 + h ∧ (X - x0) * h + (Y - y0) = n := by
  constructor
  · rintro ⟨rfl, rfl⟩
    have := Nat.mod_lt n hh
    refine ⟨Nat.le_add_right _ _, Nat.le_add_right _ _, by omega, ?_⟩
    rw [Nat.add_sub_cancel_left, Nat.add_sub_cancel_left, Nat.mul_comm]
    exact Nat.div_add_mod n h
  · rintro ⟨h1, h2, h3, rfl⟩
    have hr : Y - y0 < h := by omega
    rw [Nat.add_comm ((X - x0) * h), Nat.add_mul_div_right _ _ hh, Nat.add_mul_mod_self_right, Nat.mod_eq_of_lt hr,
      Nat.div_eq_of_lt hr]
    omega

/-- The bits n to n + k - 1 on every pixel of the display: bit i = (X - x0) * h + (Y - y0) is the pixel (X, Y) of the
glyph's cell (R88). -/
theorem drawBits_pixelAt (x0 y0 h : Nat) (hh : 0 < h) (normal : Bool) (f : Nat → Bool) (n k : Nat) (s : State)
    (X : Column) (Y : Row) :
    (drawBits x0 y0 h normal f n k s).pixelAt X Y =
      if x0 ≤ X.val ∧ y0 ≤ Y.val ∧ Y.val < y0 + h ∧ n ≤ (X.val - x0) * h + (Y.val - y0) ∧
          (X.val - x0) * h + (Y.val - y0) < n + k then
        (if normal then f ((X.val - x0) * h + (Y.val - y0)) else !f ((X.val - x0) * h + (Y.val - y0)))
      else s.pixelAt X Y := by
  induction k generalizing n s with
  | zero => rw [if_neg (by omega)]; rfl
  | succ k ih =>
    rw [drawBits_succ, ih, setPixelCore_pixelAt]
    have hiff := bit_pixel_iff (x0 := x0) (y0 := y0) (n := n) (X := X.val) (Y := Y.val) hh
    generalize (X.val - x0) * h + (Y.val - y0) = q at hiff ⊢
    by_cases hcell : x0 ≤ X.val ∧ y0 ≤ Y.val ∧ Y.val < y0 + h
    · by_cases hq : q = n
      · subst hq
        generalize (if normal then f q else !f q) = on
        rw [if_neg (by omega), if_pos (hiff.mpr ⟨hcell.1, hcell.2.1, hcell.2.2, rfl⟩), if_pos (by omega)]
      · rw [if_neg (c := x0 + n / h = X.val ∧ _) (fun h => hq (hiff.mp h).2.2.2)]
        generalize (if normal then f q else !f q) = on
        by_cases hin : n + 1 ≤ q ∧ q < n + 1 + k
        · rw [if_pos (by omega), if_pos (by omega)]
        · rw [if_neg (by omega), if_neg (by omega)]
    · generalize (if normal then f q else !f q) = on
      rw [if_neg (by omega), if_neg (fun h => hcell ⟨(hiff.mp h).1, (hiff.mp h).2.1, (hiff.mp h).2.2.1⟩),
        if_neg (by omega)]

/-- A whole glyph on every pixel of the display: its cell is 8 columns wide and h rows tall, and pixel (i, j) of the cell
is bit i * h + j (R88). -/
theorem drawGlyph_pixelAt (x0 y0 : Nat) (font : Font) (normal : Bool) (f : Nat → Bool) (s : State) (X : Column)
    (Y : Row) :
    (drawBits x0 y0 (fontHeight font) normal f 0 (8 * fontHeight font) s).pixelAt X Y =
      if x0 ≤ X.val ∧ X.val < x0 + 8 ∧ y0 ≤ Y.val ∧ Y.val < y0 + fontHeight font then
        (if normal then f ((X.val - x0) * fontHeight font + (Y.val - y0))
          else !f ((X.val - x0) * fontHeight font + (Y.val - y0)))
      else s.pixelAt X Y := by
  have hh := fontHeight_pos font
  rw [drawBits_pixelAt x0 y0 (fontHeight font) hh]
  generalize (if normal then f ((X.val - x0) * fontHeight font + (Y.val - y0))
    else !f ((X.val - x0) * fontHeight font + (Y.val - y0))) = on
  by_cases hcell : x0 ≤ X.val ∧ y0 ≤ Y.val ∧ Y.val < y0 + fontHeight font
  · have : (X.val - x0) * fontHeight font + (Y.val - y0) < 0 + 8 * fontHeight font ↔ X.val < x0 + 8 := by
      cases font <;> simp only [fontHeight] at * <;> omega
    by_cases h8 : X.val < x0 + 8
    · rw [if_pos (by omega), if_pos (by omega)]
    · rw [if_neg (by omega), if_neg (by omega)]
  · rw [if_neg (by omega), if_neg (by omega)]

end Sys2Proof.Machine
end

