-- ==== Sys2Proof/Laws/Composite.lean ====
section
/-!
SUPPORT. The composite requests one level up: a drawn glyph as one update, the digits of a number (R91), one character of
a text (R92), and the events a text sends.
-/

namespace Sys2Proof.Machine

/-! ## A drawn glyph -/

/-- The state after every bit of a glyph has been drawn (R88). -/
def glyphDrawn (x0 y0 : Nat) (ch : Byte) (font : Font) (normal : Bool) (s : State) : State :=
  drawBits x0 y0 (fontHeight font) normal (glyphBit s.params font ch) 0 (8 * fontHeight font) s

theorem drawGlyphCore_eq_ok {x0 y0 : Nat} {font : Font} (hx : x0 + 8 ≤ Config.coordMax)
    (hy : y0 + fontHeight font ≤ Config.coordMax) (ch : Byte) (normal : Bool) (s : State) :
    drawGlyphCore x0 y0 ch font normal s = .ok ⟨x0 + 8, y0⟩ (glyphDrawn x0 y0 ch font normal s) :=
  drawGlyphCore_ok x0 y0 ch font normal hx hy s

theorem glyphDrawn_onlyFb (x0 y0 : Nat) (ch : Byte) (font : Font) (normal : Bool) (s : State) :
    OnlyFb s (glyphDrawn x0 y0 ch font normal s) :=
  drawBits_onlyFb _ _ _ _ _ _ _ s

/-- A glyph drawn off the display changes nothing (R88). -/
theorem glyphDrawn_out {x0 y0 : Nat} (ho : 127 < x0 ∨ 63 < y0) (ch : Byte) (font : Font) (normal : Bool) (s : State) :
    glyphDrawn x0 y0 ch font normal s = s := by
  have key : ∀ (f : Nat → Bool) (k n : Nat), drawBits x0 y0 (fontHeight font) normal f n k s = s := by
    intro f k
    induction k with
    | zero => intro n; rfl
    | succ k ih =>
      intro n
      have h : ∀ a b : Nat, ¬(x0 + a ≤ 127 ∧ y0 + b ≤ 63) := fun a b => by omega
      rw [drawBits_succ, setPixelCore_of_out (h _ _), ih]
  exact key _ _ _

/-- What a drawn glyph does to each pixel of the display (R88). -/
theorem glyphDrawn_pixelAt (x0 y0 : Nat) (ch : Byte) (font : Font) (normal : Bool) (s : State) (X : Column) (Y : Row) :
    (glyphDrawn x0 y0 ch font normal s).pixelAt X Y =
      if x0 ≤ X.val ∧ X.val < x0 + 8 ∧ y0 ≤ Y.val ∧ Y.val < y0 + fontHeight font then
        (glyphBit s.params font ch ((X.val - x0) * fontHeight font + (Y.val - y0)) == normal)
      else s.pixelAt X Y := by
  rw [glyphDrawn, drawGlyph_pixelAt]
  cases normal <;> simp

/-- A byte that holds no pixel of a glyph's cell is left alone by the glyph. -/
theorem drawBits_fbCell (x0 y0 : Nat) (font : Font) (normal : Bool) (f : Nat → Bool) (c : Column) (p : Page)
    (hc : ∀ (X : Column) (Y : Row), x0 ≤ X.val ∧ X.val < x0 + 8 ∧ y0 ≤ Y.val ∧ Y.val < y0 + fontHeight font →
      ¬((pixelMap X Y).column = c ∧ (pixelMap X Y).page = p)) (k n : Nat) (hn : n + k ≤ 8 * fontHeight font) (s : State) :
    (drawBits x0 y0 (fontHeight font) normal f n k s).fbCell c p = s.fbCell c p := by
  have hh := fontHeight_pos font
  induction k generalizing n s with
  | zero => rfl
  | succ k ih =>
    rw [drawBits_succ, ih (n + 1) (by omega)]
    by_cases hin : x0 + n / fontHeight font ≤ 127 ∧ y0 + n % fontHeight font ≤ 63
    · rw [setPixelCore_of_in hin.1 hin.2, writePixel_fbCell_ne]
      have h8 : n / fontHeight font < 8 := Nat.div_lt_of_lt_mul (by rw [Nat.mul_comm]; omega)
      have hm := Nat.mod_lt n hh
      exact hc ⟨_, by omega⟩ ⟨_, by omega⟩
        ⟨Nat.le_add_right _ _, by simp only; omega, Nat.le_add_right _ _, by simp only; omega⟩
    · rw [setPixelCore_of_out hin]

theorem glyphDrawn_fbCell (x0 y0 : Nat) (ch : Byte) (font : Font) (normal : Bool) (s : State) (c : Column) (p : Page)
    (hc : ∀ (X : Column) (Y : Row), x0 ≤ X.val ∧ X.val < x0 + 8 ∧ y0 ≤ Y.val ∧ Y.val < y0 + fontHeight font →
      ¬((pixelMap X Y).column = c ∧ (pixelMap X Y).page = p)) :
    (glyphDrawn x0 y0 ch font normal s).fbCell c p = s.fbCell c p :=
  drawBits_fbCell x0 y0 font normal _ c p hc _ 0 (by omega) s

/-! ## The digits of a number -/

/-- The state after digits t, t + 1, ..., t + k - 1 of a number have been drawn (R91). -/
def digitsDrawn (x0 y0 v n : Nat) (font : Font) (t k : Nat) (s : State) : State :=
  (List.range' t k).foldl
    (fun s j => glyphDrawn (x0 + j * digitPitch font) y0 (digitChar (digit v n j)) font true s) s

theorem digitsDrawn_succ (x0 y0 v n : Nat) (font : Font) (t k : Nat) (s : State) :
    digitsDrawn x0 y0 v n font t (k + 1) s =
      digitsDrawn x0 y0 v n font (t + 1) k
        (glyphDrawn (x0 + t * digitPitch font) y0 (digitChar (digit v n t)) font true s) := by
  simp [digitsDrawn, List.range'_succ]

theorem digitsDrawn_onlyFb (x0 y0 v n : Nat) (font : Font) (t k : Nat) (s : State) :
    OnlyFb s (digitsDrawn x0 y0 v n font t k s) := by
  induction k generalizing t s with
  | zero => exact OnlyFb.refl s
  | succ k ih =>
    rw [digitsDrawn_succ]
    exact (glyphDrawn_onlyFb _ _ _ _ _ s).trans (ih _ _)

theorem digitsDrawn_succ_last (x0 y0 v n : Nat) (font : Font) (k : Nat) (s : State) :
    digitsDrawn x0 y0 v n font 0 (k + 1) s =
      glyphDrawn (x0 + k * digitPitch font) y0 (digitChar (digit v n k)) font true
        (digitsDrawn x0 y0 v n font 0 k s) := by
  simp [digitsDrawn, List.range'_concat]

/-- A byte that holds no pixel of a digit's cell is left alone by the number. -/
theorem digitsDrawn_fbCell (x0 y0 v n : Nat) (font : Font) (c : Column) (p : Page) (k t : Nat) (s : State)
    (hc : ∀ j, t ≤ j → j < t + k → ∀ (X : Column) (Y : Row), x0 + j * digitPitch font ≤ X.val ∧
      X.val < x0 + j * digitPitch font + 8 ∧ y0 ≤ Y.val ∧ Y.val < y0 + fontHeight font →
      ¬((pixelMap X Y).column = c ∧ (pixelMap X Y).page = p)) :
    (digitsDrawn x0 y0 v n font t k s).fbCell c p = s.fbCell c p := by
  induction k generalizing t s with
  | zero => rfl
  | succ k ih =>
    rw [digitsDrawn_succ, ih (t + 1) _ (fun j h1 h2 => hc j (by omega) (by omega)),
      glyphDrawn_fbCell _ _ _ _ _ _ _ _ (hc t (le_refl _) (by omega))]

/-- A number none of whose digits computes a coordinate above COORD_MAX is drawn whole (R91). -/
theorem numberDigits_ok (x0 y0 v n : Nat) (font : Font) (hy : y0 + fontHeight font ≤ Config.coordMax) (k t : Nat)
    (hx : ∀ j, t ≤ j → j < t + k → x0 + j * digitPitch font + 8 ≤ Config.coordMax) (s : State) :
    numberDigits x0 y0 v n font k t s = .ok () (digitsDrawn x0 y0 v n font t k s) := by
  induction k generalizing t s with
  | zero => rfl
  | succ k ih =>
    have ht := hx t (le_refl _) (by omega)
    rw [numberDigits, chk_of_le (by omega), bind_ok, drawGlyphCore_eq_ok ht hy, bind_ok,
      ih (t + 1) (fun j h1 h2 => hx j (by omega) (by omega)), digitsDrawn_succ]

/-- A number with a digit that computes a coordinate above COORD_MAX overflows, and has changed nothing (R91, R99). -/
theorem numberDigits_overflow (x0 y0 v n : Nat) (font : Font) (hout : 127 < x0 ∨ 63 < y0) (k t : Nat) (hk : 0 < k)
    (ho : Config.coordMax < x0 + (t + k - 1) * digitPitch font + 8 ∨ Config.coordMax < y0 + fontHeight font)
    (s : State) : numberDigits x0 y0 v n font k t s = .overflow s := by
  induction k generalizing t with
  | zero => omega
  | succ k ih =>
    rw [numberDigits]
    by_cases h1 : x0 + t * digitPitch font ≤ Config.coordMax
    · rw [chk_of_le h1, bind_ok]
      by_cases h2 : x0 + t * digitPitch font + 8 ≤ Config.coordMax ∧ y0 + fontHeight font ≤ Config.coordMax
      · rw [drawGlyphCore_eq_ok h2.1 h2.2, bind_ok, glyphDrawn_out (by omega)]
        have hk0 : 0 < k := by
          rcases Nat.eq_zero_or_pos k with rfl | h
          · simp only [Nat.zero_add, Nat.add_sub_cancel] at ho
            omega
          · exact h
        refine ih (t + 1) hk0 ?_
        rw [show t + 1 + k - 1 = t + (k + 1) - 1 by omega]
        exact ho
      · rw [drawGlyphCore_overflow _ _ _ _ _ (by omega), bind_overflow]
    · rw [chk_of_gt (by omega), bind_overflow]

/-! ## One character of a text -/

theorem layoutClear_fb (s : State) : (layoutClear s).fb = Memory.zero := by
  unfold layoutClear
  split <;> rfl

/-- The events of the layout clear: one refresh of a blank frame when TEXT_CLEAR_PUSH, else none (R92). -/
def layoutClearEvents (s : State) : List Event := if s.params.textClearPush then refreshEvents (zeroFB s) else []

theorem layoutClear_eq (s : State) : layoutClear s = (zeroFB s).emit (layoutClearEvents s) := by
  unfold layoutClear layoutClearEvents
  split
  · rfl
  · rw [emit_nil]

/-- The whole of TEXT's step for one character, when its wrap does not overflow (R92). -/
theorem textCore_cons (ch : Byte) (rest : List Byte) (x y : Nat) (h : 122 < x → y + 16 ≤ 255)
    (s : State) :
    textCore (ch :: rest) ⟨x, y⟩ s =
      if 58 < (if 122 < x then y + 16 else y) then
        textCore rest ⟨8, 0⟩ (glyphDrawn 0 0 ch .px12 true (layoutClear s))
      else
        textCore rest ⟨(if 122 < x then 0 else x) + 8, if 122 < x then y + 16 else y⟩
          (glyphDrawn (if 122 < x then 0 else x) (if 122 < x then y + 16 else y) ch .px12 true s) := by
  have hw : textWrap ⟨x, y⟩ s = .ok ⟨if 122 < x then 0 else x, if 122 < x then y + 16 else y⟩ s := by
    unfold textWrap
    by_cases hx : 122 < x
    · rw [if_pos hx, chk_of_le (h hx), bind_ok]; simp [hx]
    · rw [if_neg hx]; simp [hx]
  rw [textCore, hw, bind_ok]
  have hx1 : (if 122 < x then 0 else x) ≤ 122 := by split <;> omega
  generalize (if 122 < x then 0 else x) = x1 at hx1
  generalize (if 122 < x then y + 16 else y) = y1
  unfold textClear
  by_cases hy : 58 < y1
  · rw [if_pos hy, if_pos hy, bind_ok, textFont, drawGlyphCore_eq_ok (by decide) (by decide), bind_ok,
      chk_of_le (by decide), bind_ok]
    rfl
  · have h8 : x1 + 8 ≤ 255 := by omega
    have h12 : y1 + fontHeight .px12 ≤ 255 := by simp only [fontHeight]; omega
    rw [if_neg hy, if_neg hy, bind_ok, textFont, drawGlyphCore_eq_ok h8 h12, bind_ok, chk_of_le h8, bind_ok]

/-- The one overflow of TEXT: a character that wraps with y + 16 above COORD_MAX (R93). -/
theorem textCore_cons_overflow (ch : Byte) (rest : List Byte) {x y : Nat} (hx : 122 < x) (hy : 255 < y + 16)
    (s : State) : textCore (ch :: rest) ⟨x, y⟩ s = .overflow s := by
  have hw : textWrap ⟨x, y⟩ s = .overflow s := by
    unfold textWrap
    rw [if_pos hx, chk_of_gt hy, bind_overflow]
  rw [textCore, hw, bind_overflow]

end Sys2Proof.Machine
end

