-- ==== Sys2Proof/Laws/Decode.lean ====
section
/-!
SUPPORT. Fields of concatenated words, the string words of a text, and the length of an encoding.
-/

namespace Sys2Proof

/-! ## Fields of a concatenation -/

theorem extract_append_low {n m : Nat} (a : BitVec n) (b : BitVec m) {lo len : Nat} (h : lo + len ≤ m) :
    (a ++ b).extractLsb' lo len = b.extractLsb' lo len := by
  ext i hi
  have : lo + i < m := by omega
  simp [BitVec.getElem_extractLsb', BitVec.getLsbD_append, this]

theorem extract_append_high {n m : Nat} (a : BitVec n) (b : BitVec m) {lo len : Nat} (h : m ≤ lo) :
    (a ++ b).extractLsb' lo len = a.extractLsb' (lo - m) len := by
  ext i hi
  have h1 : ¬(lo + i < m) := by omega
  have h2 : lo + i - m = lo - m + i := by omega
  simp [BitVec.getElem_extractLsb', BitVec.getLsbD_append, h1, h2]

theorem extract_all {n : Nat} (a : BitVec n) : a.extractLsb' 0 n = a := by
  ext i hi
  simp

/-- One bit of a word is the field of that one bit. -/
theorem getLsbD_eq_extract {n : Nat} (a : BitVec n) (i : Nat) : a.getLsbD i = (a.extractLsb' i 1).getLsbD 0 := by
  simp

theorem ofBool_getLsbD (b : Bool) : (BitVec.ofBool b).getLsbD 0 = b := by cases b <;> rfl

/-! ## The fields of each format's words (R47 to R55) -/

@[simp] theorem encodeZ_op (op : BitVec 4) : opField (encodeZ op) = op := by
  unfold opField field encodeZ
  repeat first
    | refine (extract_append_low _ _ (by decide)).trans ?_
    | refine (extract_append_high _ _ (by decide)).trans ?_
  exact extract_all _

@[simp] theorem encodeZ_field_0 (op : BitVec 4) : field (encodeZ op) 0 28 = 0 := by
  unfold field encodeZ
  repeat first
    | refine (extract_append_low _ _ (by decide)).trans ?_
    | refine (extract_append_high _ _ (by decide)).trans ?_
  exact extract_all _

@[simp] theorem encodeS_op (c : Bool) (v : Byte) : opField (encodeS c v) = 0x2#4 := by
  unfold opField field encodeS
  repeat first
    | refine (extract_append_low _ _ (by decide)).trans ?_
    | refine (extract_append_high _ _ (by decide)).trans ?_
  exact extract_all _

@[simp] theorem encodeS_field_9 (c : Bool) (v : Byte) : field (encodeS c v) 9 19 = 0 := by
  unfold field encodeS
  repeat first
    | refine (extract_append_low _ _ (by decide)).trans ?_
    | refine (extract_append_high _ _ (by decide)).trans ?_
  exact extract_all _

@[simp] theorem encodeS_field_0 (c : Bool) (v : Byte) : field (encodeS c v) 0 8 = v := by
  unfold field encodeS
  repeat first
    | refine (extract_append_low _ _ (by decide)).trans ?_
    | refine (extract_append_high _ _ (by decide)).trans ?_
  exact extract_all _

@[simp] theorem encodeS_bit_8 (c : Bool) (v : Byte) : (encodeS c v).getLsbD 8 = c := by
  rw [getLsbD_eq_extract]
  refine Eq.trans (congrArg (BitVec.getLsbD · 0) (?_ : _ = BitVec.ofBool c)) (ofBool_getLsbD _)
  unfold encodeS
  repeat first
    | refine (extract_append_low _ _ (by decide)).trans ?_
    | refine (extract_append_high _ _ (by decide)).trans ?_
  exact extract_all _

@[simp] theorem encodeP_op (x y : Byte) (on : Bool) : opField (encodeP x y on) = 0x3#4 := by
  unfold opField field encodeP
  repeat first
    | refine (extract_append_low _ _ (by decide)).trans ?_
    | refine (extract_append_high _ _ (by decide)).trans ?_
  exact extract_all _

@[simp] theorem encodeP_field_17 (x y : Byte) (on : Bool) : field (encodeP x y on) 17 11 = 0 := by
  unfold field encodeP
  repeat first
    | refine (extract_append_low _ _ (by decide)).trans ?_
    | refine (extract_append_high _ _ (by decide)).trans ?_
  exact extract_all _

@[simp] theorem encodeP_field_0 (x y : Byte) (on : Bool) : field (encodeP x y on) 0 8 = x := by
  unfold field encodeP
  repeat first
    | refine (extract_append_low _ _ (by decide)).trans ?_
    | refine (extract_append_high _ _ (by decide)).trans ?_
  exact extract_all _

@[simp] theorem encodeP_field_8 (x y : Byte) (on : Bool) : field (encodeP x y on) 8 8 = y := by
  unfold field encodeP
  repeat first
    | refine (extract_append_low _ _ (by decide)).trans ?_
    | refine (extract_append_high _ _ (by decide)).trans ?_
  exact extract_all _

@[simp] theorem encodeP_bit_16 (x y : Byte) (on : Bool) : (encodeP x y on).getLsbD 16 = on := by
  rw [getLsbD_eq_extract]
  refine Eq.trans (congrArg (BitVec.getLsbD · 0) (?_ : _ = BitVec.ofBool on)) (ofBool_getLsbD _)
  unfold encodeP
  repeat first
    | refine (extract_append_low _ _ (by decide)).trans ?_
    | refine (extract_append_high _ _ (by decide)).trans ?_
  exact extract_all _

@[simp] theorem encodeG_op (x y ch : Byte) (font : Font) (normal : Bool) : opField (encodeG x y ch font normal) = 0x6#4 := by
  unfold opField field encodeG
  repeat first
    | refine (extract_append_low _ _ (by decide)).trans ?_
    | refine (extract_append_high _ _ (by decide)).trans ?_
  exact extract_all _

@[simp] theorem encodeG_field_26 (x y ch : Byte) (font : Font) (normal : Bool) : field (encodeG x y ch font normal) 26 2 = 0 := by
  unfold field encodeG
  repeat first
    | refine (extract_append_low _ _ (by decide)).trans ?_
    | refine (extract_append_high _ _ (by decide)).trans ?_
  exact extract_all _

@[simp] theorem encodeG_field_0 (x y ch : Byte) (font : Font) (normal : Bool) : field (encodeG x y ch font normal) 0 8 = x := by
  unfold field encodeG
  repeat first
    | refine (extract_append_low _ _ (by decide)).trans ?_
    | refine (extract_append_high _ _ (by decide)).trans ?_
  exact extract_all _

@[simp] theorem encodeG_field_8 (x y ch : Byte) (font : Font) (normal : Bool) : field (encodeG x y ch font normal) 8 8 = y := by
  unfold field encodeG
  repeat first
    | refine (extract_append_low _ _ (by decide)).trans ?_
    | refine (extract_append_high _ _ (by decide)).trans ?_
  exact extract_all _

@[simp] theorem encodeG_field_16 (x y ch : Byte) (font : Font) (normal : Bool) : field (encodeG x y ch font normal) 16 8 = ch := by
  unfold field encodeG
  repeat first
    | refine (extract_append_low _ _ (by decide)).trans ?_
    | refine (extract_append_high _ _ (by decide)).trans ?_
  exact extract_all _

@[simp] theorem encodeG_bit_24 (x y ch : Byte) (font : Font) (normal : Bool) : (encodeG x y ch font normal).getLsbD 24 = fontBit font := by
  rw [getLsbD_eq_extract]
  refine Eq.trans (congrArg (BitVec.getLsbD · 0) (?_ : _ = BitVec.ofBool (fontBit font))) (ofBool_getLsbD _)
  unfold encodeG
  repeat first
    | refine (extract_append_low _ _ (by decide)).trans ?_
    | refine (extract_append_high _ _ (by decide)).trans ?_
  exact extract_all _

@[simp] theorem encodeG_bit_25 (x y ch : Byte) (font : Font) (normal : Bool) : (encodeG x y ch font normal).getLsbD 25 = normal := by
  rw [getLsbD_eq_extract]
  refine Eq.trans (congrArg (BitVec.getLsbD · 0) (?_ : _ = BitVec.ofBool normal)) (ofBool_getLsbD _)
  unfold encodeG
  repeat first
    | refine (extract_append_low _ _ (by decide)).trans ?_
    | refine (extract_append_high _ _ (by decide)).trans ?_
  exact extract_all _

@[simp] theorem encodeN_op (x y : Byte) (n : BitVec 4) (font : Font) : opField (encodeN x y n font) = 0x7#4 := by
  unfold opField field encodeN
  repeat first
    | refine (extract_append_low _ _ (by decide)).trans ?_
    | refine (extract_append_high _ _ (by decide)).trans ?_
  exact extract_all _

@[simp] theorem encodeN_field_25 (x y : Byte) (n : BitVec 4) (font : Font) : field (encodeN x y n font) 25 3 = 0 := by
  unfold field encodeN
  repeat first
    | refine (extract_append_low _ _ (by decide)).trans ?_
    | refine (extract_append_high _ _ (by decide)).trans ?_
  exact extract_all _

@[simp] theorem encodeN_field_20 (x y : Byte) (n : BitVec 4) (font : Font) : field (encodeN x y n font) 20 4 = 0 := by
  unfold field encodeN
  repeat first
    | refine (extract_append_low _ _ (by decide)).trans ?_
    | refine (extract_append_high _ _ (by decide)).trans ?_
  exact extract_all _

@[simp] theorem encodeN_field_0 (x y : Byte) (n : BitVec 4) (font : Font) : field (encodeN x y n font) 0 8 = x := by
  unfold field encodeN
  repeat first
    | refine (extract_append_low _ _ (by decide)).trans ?_
    | refine (extract_append_high _ _ (by decide)).trans ?_
  exact extract_all _

@[simp] theorem encodeN_field_8 (x y : Byte) (n : BitVec 4) (font : Font) : field (encodeN x y n font) 8 8 = y := by
  unfold field encodeN
  repeat first
    | refine (extract_append_low _ _ (by decide)).trans ?_
    | refine (extract_append_high _ _ (by decide)).trans ?_
  exact extract_all _

@[simp] theorem encodeN_field_16 (x y : Byte) (n : BitVec 4) (font : Font) : field (encodeN x y n font) 16 4 = n := by
  unfold field encodeN
  repeat first
    | refine (extract_append_low _ _ (by decide)).trans ?_
    | refine (extract_append_high _ _ (by decide)).trans ?_
  exact extract_all _

@[simp] theorem encodeN_bit_24 (x y : Byte) (n : BitVec 4) (font : Font) : (encodeN x y n font).getLsbD 24 = fontBit font := by
  rw [getLsbD_eq_extract]
  refine Eq.trans (congrArg (BitVec.getLsbD · 0) (?_ : _ = BitVec.ofBool (fontBit font))) (ofBool_getLsbD _)
  unfold encodeN
  repeat first
    | refine (extract_append_low _ _ (by decide)).trans ?_
    | refine (extract_append_high _ _ (by decide)).trans ?_
  exact extract_all _

@[simp] theorem encodeT_op (x y : Byte) : opField (encodeT x y) = 0x8#4 := by
  unfold opField field encodeT
  repeat first
    | refine (extract_append_low _ _ (by decide)).trans ?_
    | refine (extract_append_high _ _ (by decide)).trans ?_
  exact extract_all _

@[simp] theorem encodeT_field_16 (x y : Byte) : field (encodeT x y) 16 12 = 0 := by
  unfold field encodeT
  repeat first
    | refine (extract_append_low _ _ (by decide)).trans ?_
    | refine (extract_append_high _ _ (by decide)).trans ?_
  exact extract_all _

@[simp] theorem encodeT_field_0 (x y : Byte) : field (encodeT x y) 0 8 = x := by
  unfold field encodeT
  repeat first
    | refine (extract_append_low _ _ (by decide)).trans ?_
    | refine (extract_append_high _ _ (by decide)).trans ?_
  exact extract_all _

@[simp] theorem encodeT_field_8 (x y : Byte) : field (encodeT x y) 8 8 = y := by
  unfold field encodeT
  repeat first
    | refine (extract_append_low _ _ (by decide)).trans ?_
    | refine (extract_append_high _ _ (by decide)).trans ?_
  exact extract_all _

@[simp] theorem packWord_field_0 (a b c d : Byte) : field (packWord a b c d) 0 8 = a := by
  unfold field packWord
  repeat first
    | refine (extract_append_low _ _ (by decide)).trans ?_
    | refine (extract_append_high _ _ (by decide)).trans ?_
  exact extract_all _

@[simp] theorem packWord_field_8 (a b c d : Byte) : field (packWord a b c d) 8 8 = b := by
  unfold field packWord
  repeat first
    | refine (extract_append_low _ _ (by decide)).trans ?_
    | refine (extract_append_high _ _ (by decide)).trans ?_
  exact extract_all _

@[simp] theorem packWord_field_16 (a b c d : Byte) : field (packWord a b c d) 16 8 = c := by
  unfold field packWord
  repeat first
    | refine (extract_append_low _ _ (by decide)).trans ?_
    | refine (extract_append_high _ _ (by decide)).trans ?_
  exact extract_all _

@[simp] theorem packWord_field_24 (a b c d : Byte) : field (packWord a b c d) 24 8 = d := by
  unfold field packWord
  repeat first
    | refine (extract_append_low _ _ (by decide)).trans ?_
    | refine (extract_append_high _ _ (by decide)).trans ?_
  exact extract_all _

/-! ## Words from their fields -/

/-- Two adjacent fields concatenated are one field. -/
theorem extract_append_extract {k : Nat} (w : BitVec k) (lo m n : Nat) :
    w.extractLsb' (lo + m) n ++ w.extractLsb' lo m = w.extractLsb' lo (n + m) := by
  ext i hi
  simp only [BitVec.getElem_append, BitVec.getElem_extractLsb']
  by_cases h : i < m
  · simp [h]
  · simp only [h, dif_neg, not_false_eq_true]
    congr 1
    omega

theorem ofBool_getLsbD_eq_extract {k : Nat} (w : BitVec k) (i : Nat) : BitVec.ofBool (w.getLsbD i) = w.extractLsb' i 1 := by
  ext j hj
  obtain rfl : j = 0 := by omega
  simp

/-- The string bytes of a word determine it (R55.1). -/
theorem packWord_wordBytes (w : Word) : packWord (field w 0 8) (field w 8 8) (field w 16 8) (field w 24 8) = w := by
  simp only [packWord, field]
  rw [extract_append_extract w 16 8 8, extract_append_extract w 8 8 16, extract_append_extract w 0 8 24]
  exact extract_all w

@[simp] theorem wordBytes_packWord (a b c d : Byte) : wordBytes (packWord a b c d) = [a, b, c, d] := by
  simp [wordBytes]

/-! ## The string words of a text (R55) -/

@[simp] theorem packString_length (chars : List Byte) : (packString chars).length = textWords chars := by
  induction chars using packString.induct with
  | case1 => simp [packString, textWords]
  | case2 => simp [packString, textWords]
  | case3 => simp [packString, textWords]
  | case4 => simp [packString, textWords]
  | case5 a b c d rest ih =>
    simp only [packString, List.length_cons, ih, textWords]
    omega

/-- The bytes of a packed text: its characters, the terminator, and zeros (R55). -/
theorem packString_bytes (chars : List Byte) :
    ∃ pad : Nat, (packString chars).flatMap wordBytes = chars ++ 0 :: List.replicate pad 0 := by
  induction chars using packString.induct with
  | case1 => exact ⟨3, by simp [packString, List.replicate]⟩
  | case2 a => exact ⟨2, by simp [packString, List.replicate]⟩
  | case3 a b => exact ⟨1, by simp [packString, List.replicate]⟩
  | case4 a b c => exact ⟨0, by simp [packString]⟩
  | case5 a b c d rest ih =>
    obtain ⟨pad, h⟩ := ih
    exact ⟨pad, by simp [packString, h]⟩

/-- The string words of a packed text with no 0x00 character are found whole, whatever words follow (R46). -/
theorem stringWords_packString (chars : List Byte) (h : (0 : Byte) ∉ chars) (rest : List Word) :
    stringWords (packString chars ++ rest) = some (packString chars) := by
  induction chars using packString.induct with
  | case1 => simp [packString, stringWords]
  | case2 a => simp [packString, stringWords]
  | case3 a b => simp [packString, stringWords]
  | case4 a b c => simp [packString, stringWords]
  | case5 a b c d r ih =>
    simp only [List.mem_cons, not_or] at h
    obtain ⟨ha, hb, hc, hd, hr⟩ := h
    have : ¬(wordBytes (packWord a b c d)).contains 0 = true := by
      simpa using ⟨ha, hb, hc, hd⟩
    simp only [packString, List.cons_append, stringWords, this, if_false, ih hr, Option.map_some, Bool.false_eq_true]

/-- What the string words of a TEXT are: the words up to and including the first that holds a 0x00 byte (R46). -/
theorem stringWords_eq_some_iff (ws out : List Word) :
    stringWords ws = some out ↔
      ∃ (pre : List Word) (last : Word) (post : List Word), ws = pre ++ [last] ++ post ∧ out = pre ++ [last] ∧
        (∀ v ∈ pre, ∀ b ∈ wordBytes v, b ≠ 0) ∧ (0 : Byte) ∈ wordBytes last := by
  induction ws generalizing out with
  | nil => simp [stringWords]
  | cons w ws ih =>
    simp only [stringWords]
    by_cases hw : (0 : Byte) ∈ wordBytes w
    · rw [if_pos (by simpa using hw)]
      constructor
      · rintro ⟨⟩
        exact ⟨[], w, ws, rfl, rfl, by simp, hw⟩
      · rintro ⟨pre, last, post, h1, h2, h3, h4⟩
        cases pre with
        | nil => simp_all
        | cons v pre =>
          obtain ⟨rfl, -⟩ := List.cons.inj h1
          exact absurd rfl (h3 w (by simp) 0 hw)
    · rw [if_neg (by simpa using hw)]
      simp only [Option.map_eq_some_iff]
      constructor
      · rintro ⟨out', ho, rfl⟩
        obtain ⟨pre, last, post, h1, h2, h3, h4⟩ := (ih out').mp ho
        refine ⟨w :: pre, last, post, by simp [h1], by simp [h2], fun v hv b hb => ?_, h4⟩
        rcases List.mem_cons.mp hv with rfl | hv
        · rintro rfl; exact hw hb
        · exact h3 v hv b hb
      · rintro ⟨pre, last, post, h1, h2, h3, h4⟩
        cases pre with
        | nil =>
          obtain ⟨rfl, -⟩ := List.cons.inj h1
          exact absurd h4 hw
        | cons v pre =>
          obtain ⟨rfl, rfl⟩ := List.cons.inj h1
          exact ⟨pre ++ [last], (ih _).mpr ⟨pre, last, post, rfl, rfl,
            fun u hu => h3 u (by simp [hu]), h4⟩, by simp [h2]⟩

theorem stringWords_eq_none_iff (ws : List Word) :
    stringWords ws = none ↔ ∀ v ∈ ws, ∀ b ∈ wordBytes v, b ≠ 0 := by
  induction ws with
  | nil => simp [stringWords]
  | cons w ws ih =>
    simp only [stringWords]
    by_cases hw : (0 : Byte) ∈ wordBytes w
    · rw [if_pos (by simpa using hw)]
      simp only [reduceCtorEq, List.mem_cons, forall_eq_or_imp, false_iff, not_and]
      exact fun h => absurd rfl (h 0 hw)
    · rw [if_neg (by simpa using hw)]
      simp only [Option.map_eq_none_iff, ih, List.mem_cons, forall_eq_or_imp]
      exact ⟨fun h => ⟨fun b hb h0 => hw (h0 ▸ hb), h⟩, fun h => h.2⟩

theorem isPrintable_iff (ch : Byte) : isPrintable ch = true ↔ 0x20 ≤ ch.toNat ∧ ch.toNat ≤ 0x7E := by
  simp [isPrintable]

theorem isPrintable_ne_zero {ch : Byte} (h : isPrintable ch = true) : ch ≠ 0 := by
  rintro rfl
  exact absurd h (by decide)

/-! ## What decode can answer -/

theorem decode_cons (w : Word) (rest : List Word) : decode (w :: rest) = decodeOp (opField w).toNat w rest := rfl

theorem checked_eq_request_iff {i j : Instr} {n m : Nat} {why : IllegalReason} :
    checked i n why = .request j m ↔ i.wellFormed = true ∧ j = i ∧ m = n := by
  unfold checked
  split
  · rename_i h
    simp only [h, true_and, DecodeResult.request.injEq]
    exact ⟨fun hc => ⟨hc.1.symm, hc.2.symm⟩, fun hc => ⟨hc.1.symm, hc.2.symm⟩⟩
  · rename_i h
    simp [h]

theorem decodeZ_eq_request_iff {i j : Instr} {w : Word} {n : Nat} :
    decodeZ i w = .request j n ↔ field w 0 28 = 0 ∧ j = i ∧ n = 1 := by
  unfold decodeZ
  split <;> simp_all [eq_comm]

theorem decodeS_eq_request_iff {i : Instr} {w : Word} {n : Nat} :
    decodeS w = .request i n ↔ field w 9 19 = 0 ∧ i = .send (w.getLsbD 8) (field w 0 8) ∧ n = 1 := by
  unfold decodeS
  split <;> simp_all [eq_comm]

theorem decodeP_eq_request_iff {i : Instr} {w : Word} {n : Nat} :
    decodeP w = .request i n ↔
      field w 17 11 = 0 ∧ i = .setpix (field w 0 8) (field w 8 8) (w.getLsbD 16) ∧ n = 1 := by
  unfold decodeP
  split <;> simp_all [eq_comm]

/-- The GLYPH of a first word's fields (R52). -/
def glyphOf (w : Word) : Instr :=
  .glyph (field w 0 8) (field w 8 8) (field w 16 8) (fontOfBit (w.getLsbD 24)) (w.getLsbD 25)

theorem decodeG_eq_request_iff {i : Instr} {w : Word} {n : Nat} :
    decodeG w = .request i n ↔ field w 26 2 = 0 ∧ (glyphOf w).wellFormed = true ∧ i = glyphOf w ∧ n = 1 := by
  unfold decodeG
  split
  · simp_all
  · rw [checked_eq_request_iff]
    simp_all [glyphOf]

/-- The NUMBER of its two words' fields (R53). -/
def numberOf (w w1 : Word) : Instr :=
  .number (field w 0 8) (field w 8 8) (field w 16 4) (fontOfBit (w.getLsbD 24)) w1

theorem decodeN_eq_request_iff {i : Instr} {w w1 : Word} {n : Nat} :
    decodeN w w1 = .request i n ↔
      field w 25 3 = 0 ∧ field w 20 4 = 0 ∧ (numberOf w w1).wellFormed = true ∧ i = numberOf w w1 ∧ n = 2 := by
  unfold decodeN
  split
  · rename_i h
    refine ⟨fun hc => (by cases hc), fun hc => ?_⟩
    exact absurd h (by simp [hc.1, hc.2.1])
  · rename_i h
    rw [checked_eq_request_iff]
    simp only [not_or, ne_eq, Decidable.not_not] at h
    exact ⟨fun hc => ⟨h.1, h.2, hc⟩, fun hc => hc.2.2⟩

/-- The TEXT of its first word's fields and its string words (R54, R55). -/
def textOf (w : Word) (ws : List Word) : Instr :=
  .text (field w 0 8) (field w 8 8) ((ws.flatMap wordBytes).takeWhile (· ≠ 0))

theorem decodeT_eq_request_iff {i : Instr} {w : Word} {ws : List Word} {n : Nat} :
    decodeT w ws = .request i n ↔
      field w 16 12 = 0 ∧ ((ws.flatMap wordBytes).dropWhile (· ≠ 0)).any (· ≠ 0) = false ∧
        (textOf w ws).wellFormed = true ∧ i = textOf w ws ∧ n = 1 + ws.length := by
  simp only [decodeT]
  split
  · rename_i h
    exact ⟨fun hc => (by cases hc), fun hc => absurd hc.1 h⟩
  · rename_i h
    simp only [ne_eq, Decidable.not_not] at h
    split
    · rename_i h'
      exact ⟨fun hc => (by cases hc), fun hc => absurd h' (by rw [hc.2.1]; decide)⟩
    · rename_i h'
      rw [checked_eq_request_iff]
      exact ⟨fun hc => ⟨h, by simpa using h', hc⟩, fun hc => hc.2.2⟩

/-- Everything a decoded request can be (R45): its OP, its reserved bits, its range checks, its operands, its length. -/
theorem decode_eq_request_iff {w : Word} {rest : List Word} {i : Instr} {n : Nat} :
    decode (w :: rest) = .request i n ↔
      ((opField w).toNat = 1 ∧ field w 0 28 = 0 ∧ i = .init ∧ n = 1) ∨
      ((opField w).toNat = 2 ∧ field w 9 19 = 0 ∧ i = .send (w.getLsbD 8) (field w 0 8) ∧ n = 1) ∨
      ((opField w).toNat = 3 ∧ field w 17 11 = 0 ∧ i = .setpix (field w 0 8) (field w 8 8) (w.getLsbD 16) ∧ n = 1) ∨
      ((opField w).toNat = 4 ∧ field w 0 28 = 0 ∧ i = .refresh ∧ n = 1) ∨
      ((opField w).toNat = 5 ∧ field w 0 28 = 0 ∧ i = .clear ∧ n = 1) ∨
      ((opField w).toNat = 6 ∧ field w 26 2 = 0 ∧ (glyphOf w).wellFormed = true ∧ i = glyphOf w ∧ n = 1) ∨
      ((opField w).toNat = 7 ∧ ∃ w1 r, rest = w1 :: r ∧ field w 25 3 = 0 ∧ field w 20 4 = 0 ∧
        (numberOf w w1).wellFormed = true ∧ i = numberOf w w1 ∧ n = 2) ∨
      ((opField w).toNat = 8 ∧ ∃ ws, stringWords rest = some ws ∧ field w 16 12 = 0 ∧
        ((ws.flatMap wordBytes).dropWhile (· ≠ 0)).any (· ≠ 0) = false ∧
        (textOf w ws).wellFormed = true ∧ i = textOf w ws ∧ n = 1 + ws.length) := by
  rw [decode_cons]
  unfold decodeOp
  split <;> rename_i hop
  · simp [hop, decodeZ_eq_request_iff]
  · simp only [hop, decodeS_eq_request_iff]; simp
  · simp only [hop, decodeP_eq_request_iff]; simp
  · simp [hop, decodeZ_eq_request_iff]
  · simp [hop, decodeZ_eq_request_iff]
  · simp only [hop, decodeG_eq_request_iff]; simp
  · cases rest with
    | nil => simp [hop, decodeNumber]
    | cons w1 r => simp only [hop, decodeNumber, decodeN_eq_request_iff]; simp
  · unfold decodeText
    split
    · rename_i hs
      simp [hop, hs]
    · rename_i ws hs
      simp only [hop, hs, decodeT_eq_request_iff]
      simp
  · simp_all

/-- When a request is incomplete (R61). -/
theorem decode_eq_incomplete_iff {w : Word} {rest : List Word} :
    decode (w :: rest) = .incomplete ↔
      ((opField w).toNat = 7 ∧ rest = []) ∨ ((opField w).toNat = 8 ∧ stringWords rest = none) := by
  have hc : ∀ (i : Instr) (n : Nat) (why : IllegalReason), checked i n why ≠ .incomplete := by
    intro i n why
    unfold checked
    split <;> simp
  have hz : ∀ i, decodeZ i w ≠ .incomplete := by
    intro i
    unfold decodeZ
    split <;> simp
  rw [decode_cons]
  unfold decodeOp
  split <;> rename_i hop
  · simp [hop, hz]
  · simp only [hop, decodeS]
    split <;> simp
  · simp only [hop, decodeP]
    split <;> simp
  · simp [hop, hz]
  · simp [hop, hz]
  · simp only [hop, decodeG]
    split <;> simp [hc]
  · cases rest with
    | nil => simp [hop, decodeNumber]
    | cons w1 r =>
      simp only [hop, decodeNumber, decodeN]
      split <;> simp [hc]
  · unfold decodeText
    split
    · rename_i hs
      simp [hop, hs]
    · rename_i ws hs
      simp only [hop, hs, decodeT]
      split
      · simp
      · split
        · simp
        · simp [hc]
  · simp_all

/-! ## A text's string words and its characters -/

theorem fontOfBit_fontBit (font : Font) : fontOfBit (fontBit font) = font := by cases font <;> rfl

theorem fontBit_fontOfBit (b : Bool) : fontBit (fontOfBit b) = b := by cases b <;> rfl

/-- The bytes of a packed text split at its terminator (R55.2, R55.3). -/
theorem split_at_terminator (chars : List Byte) (h : (0 : Byte) ∉ chars) (pad : Nat) :
    (chars ++ 0 :: List.replicate pad 0).takeWhile (· ≠ 0) = chars ∧
      ((chars ++ 0 :: List.replicate pad 0).dropWhile (· ≠ 0)).any (· ≠ 0) = false := by
  have hc : ∀ b ∈ chars, decide (b ≠ 0) = true := by
    intro b hb
    rw [decide_eq_true_iff]
    rintro rfl
    exact h hb
  constructor
  · rw [List.takeWhile_append_of_pos hc]
    simp
  · rw [List.dropWhile_append_of_pos hc]
    simp

/-- The words of a TEXT with no 0x00 character decode to it when its characters are in range (R54, R55). -/
theorem decode_encode_text (x y : Byte) (chars : List Byte) (h : (0 : Byte) ∉ chars) (rest : List Word) :
    decode (encode (.text x y chars) ++ rest) = checked (.text x y chars) (1 + textWords chars) .charRange := by
  obtain ⟨pad, hp⟩ := packString_bytes chars
  obtain ⟨h1, h2⟩ := split_at_terminator chars h pad
  simp only [encode, List.cons_append, decode, encodeT_op]
  rw [show ((0x8#4).toNat) = 8 from rfl]
  simp only [decodeOp, decodeText, stringWords_packString chars h, decodeT, hp, h1, h2, encodeT_field_16,
    encodeT_field_0, encodeT_field_8]
  simp

end Sys2Proof
end

