-- ==== Sys2Proof/Laws/PerInstr.lean ====
section
/-!
SUPPORT. The family `Shape` of per-instruction lemmas: the length of a request's words (R46) and the OP of its first word
(R45).
-/

namespace Sys2Proof.Laws.Shape

/-- The OP of each request (R45). -/
def op : Instr → BitVec 4
  | .init => 0x1
  | .send _ _ => 0x2
  | .setpix _ _ _ => 0x3
  | .refresh => 0x4
  | .clear => 0x5
  | .glyph _ _ _ _ _ => 0x6
  | .number _ _ _ _ _ => 0x7
  | .text _ _ _ => 0x8

/-- The words of a request are as many as its length, and the first holds its OP. -/
def Statement (i : Instr) : Prop := (encode i).length = i.words ∧ (encode i).head?.map opField = some (op i)

theorem init : Statement .init := ⟨rfl, by simp [encode, op]⟩

theorem send (isCommand : Bool) (value : Byte) : Statement (.send isCommand value) := ⟨rfl, by simp [encode, op]⟩

theorem setpix (x y : Byte) (on : Bool) : Statement (.setpix x y on) := ⟨rfl, by simp [encode, op]⟩

theorem refresh : Statement .refresh := ⟨rfl, by simp [encode, op]⟩

theorem clear : Statement .clear := ⟨rfl, by simp [encode, op]⟩

theorem glyph (x y ch : Byte) (font : Font) (normal : Bool) : Statement (.glyph x y ch font normal) :=
  ⟨rfl, by simp [encode, op]⟩

theorem number (x y : Byte) (digits : BitVec 4) (font : Font) (value : Word) :
    Statement (.number x y digits font value) := ⟨rfl, by simp [encode, op]⟩

theorem text (x y : Byte) (chars : List Byte) : Statement (.text x y chars) := by
  refine ⟨?_, by simp [encode, op]⟩
  rw [encode, List.length_cons, packString_length, Instr.words, Nat.add_comm]

end Sys2Proof.Laws.Shape
end

