-- ==== Sys2Proof/Laws/Step.lean ====
section
/-!
SUPPORT. What a request and a step can do, said once: `exec_cases` and `step_cases` are what a proof about every request
or every step cites.
-/

namespace Sys2Proof.Machine

/-! ## Pieces of a request that send link bytes -/

/-- The events of a list of link bytes, in order (R65). -/
def linkEvents (bs : List (Byte × Bool)) : List Event := bs.flatMap fun b => sendByteEvents b.1 b.2

@[simp] theorem linkEvents_nil : linkEvents [] = [] := rfl

theorem linkEvents_append (bs bs' : List (Byte × Bool)) : linkEvents (bs ++ bs') = linkEvents bs ++ linkEvents bs' := by
  simp [linkEvents]

/-- `t` is `s` but for its framebuffer and the link bytes it sent; the framebuffer keeps its canonical form and its
written bytes. -/
structure Sends (s t : State) (bs : List (Byte × Bool)) : Prop where
  eq : t = { s.emit (linkEvents bs) with fb := t.fb }
  wf : Memory.wf s.fb = true → Memory.wf t.fb = true
  written : ∀ c p, s.fbCell c p ≠ none → t.fbCell c p ≠ none

theorem Sends.trans {s t u : State} {bs bs' : List (Byte × Bool)} (h : Sends s t bs) (k : Sends t u bs') :
    Sends s u (bs ++ bs') := by
  refine ⟨?_, k.wf ∘ h.wf, fun c p hc => k.written c p (h.written c p hc)⟩
  rw [k.eq, h.eq, linkEvents_append, emit_append]
  rfl

theorem OnlyFb.sends {s t : State} (h : OnlyFb s t) : Sends s t [] := by
  refine ⟨?_, h.wf, h.written⟩
  rw [linkEvents_nil, emit_nil]
  exact h.eq

theorem emit_sends (s : State) (bs : List (Byte × Bool)) : Sends s (s.emit (linkEvents bs)) bs :=
  ⟨rfl, id, fun _ _ => id⟩

theorem Sends.params {s t : State} {bs : List (Byte × Bool)} (h : Sends s t bs) : t.params = s.params := by rw [h.eq]; rfl
theorem Sends.mode {s t : State} {bs : List (Byte × Bool)} (h : Sends s t bs) : t.mode = s.mode := by rw [h.eq]; rfl
theorem Sends.fault {s t : State} {bs : List (Byte × Bool)} (h : Sends s t bs) : t.fault = s.fault := by rw [h.eq]; rfl
theorem Sends.rp {s t : State} {bs : List (Byte × Bool)} (h : Sends s t bs) : t.rp = s.rp := by rw [h.eq]; rfl
theorem Sends.resp {s t : State} {bs : List (Byte × Bool)} (h : Sends s t bs) : t.resp = s.resp := by rw [h.eq]; rfl
theorem Sends.stream {s t : State} {bs : List (Byte × Bool)} (h : Sends s t bs) : t.stream = s.stream := by
  rw [h.eq]; rfl
theorem Sends.trace {s t : State} {bs : List (Byte × Bool)} (h : Sends s t bs) :
    t.trace = s.trace ++ linkEvents bs := by rw [h.eq]; rfl
theorem Sends.lines {s t : State} {bs : List (Byte × Bool)} (h : Sends s t bs) :
    t.lines = (linkEvents bs).foldl Lines.after s.lines := by rw [h.eq]; rfl

theorem refreshCore_sends (s : State) : Sends s (refreshCore s) (refreshSent s) := by
  rw [refreshCore, refreshEvents_eq]
  exact emit_sends s _

theorem layoutClear_sends (s : State) :
    Sends s (layoutClear s) (if s.params.textClearPush then refreshSent (zeroFB s) else []) := by
  unfold layoutClear
  split
  · exact (zeroFB_onlyFb s).sends.trans (refreshCore_sends _)
  · exact (zeroFB_onlyFb s).sends

/-- How many times a text's layout clears the framebuffer, from the cursor (x, y) (R92). -/
def textClears : List Byte → Nat → Nat → Nat
  | [], _, _ => 0
  | _ :: rest, x, y =>
    if 58 < (if 122 < x then y + 16 else y) then textClears rest 8 0 + 1
    else textClears rest ((if 122 < x then 0 else x) + 8) (if 122 < x then y + 16 else y)

/-- The link bytes of a text's layout clears: one blank frame each when TEXT_CLEAR_PUSH (R92). -/
def clearBytes (s : State) (n : Nat) : List (Byte × Bool) :=
  if s.params.textClearPush then (List.replicate n (refreshSent (zeroFB s))).flatten else []

theorem refreshSent_congr {s t : State} (hp : s.params = t.params) (hb : ∀ c p, s.fbByte c p = t.fbByte c p) :
    refreshSent s = refreshSent t := by
  unfold refreshSent
  congr 1
  funext p
  simp only [pageBytes, hp, hb]

/-- A blank frame depends on the addressing parameters alone (R82). -/
theorem refreshSent_zeroFB {s t : State} (hp : s.params = t.params) : refreshSent (zeroFB s) = refreshSent (zeroFB t) :=
  refreshSent_congr (by rw [zeroFB_params, zeroFB_params]; exact hp) fun c p => by rw [zeroFB_fbByte, zeroFB_fbByte]

theorem clearBytes_congr {s t : State} (hp : s.params = t.params) (n : Nat) : clearBytes s n = clearBytes t n := by
  unfold clearBytes
  rw [refreshSent_zeroFB hp, hp]

theorem clearBytes_succ (s : State) (n : Nat) :
    clearBytes s (n + 1) = (if s.params.textClearPush then refreshSent (zeroFB s) else []) ++ clearBytes s n := by
  unfold clearBytes
  split
  · rw [List.replicate_succ, List.flatten_cons]
  · rfl

/-- A text that does not overflow completes; it changes the framebuffer and sends the bytes of its layout clears (R92). -/
theorem textCore_sends (chars : List Byte) (x y : Nat) (h : chars ≠ [] → 122 < x → y + 16 ≤ 255) (s : State) :
    ∃ cur t, textCore chars ⟨x, y⟩ s = .ok cur t ∧ Sends s t (clearBytes s (textClears chars x y)) := by
  induction chars generalizing x y s with
  | nil =>
    refine ⟨⟨x, y⟩, s, rfl, ?_⟩
    have : clearBytes s (textClears [] x y) = [] := by simp [textClears, clearBytes]
    rw [this]
    exact (OnlyFb.refl s).sends
  | cons ch rest ih =>
    rw [textCore_cons ch rest x y (h (by simp)), textClears]
    have hx1 : (if 122 < x then 0 else x) ≤ 122 := by split <;> omega
    generalize (if 122 < x then 0 else x) = x1 at hx1
    generalize (if 122 < x then y + 16 else y) = y1
    split
    · have hd := (layoutClear_sends s).trans (glyphDrawn_onlyFb 0 0 ch .px12 true (layoutClear s)).sends
      obtain ⟨cur, t, ht, hs⟩ := ih 8 0 (by omega) (glyphDrawn 0 0 ch .px12 true (layoutClear s))
      refine ⟨cur, t, ht, ?_⟩
      rw [List.append_nil] at hd
      rw [clearBytes_succ, ← clearBytes_congr hd.params]
      exact hd.trans hs
    · have hd := (glyphDrawn_onlyFb x1 y1 ch .px12 true s).sends
      obtain ⟨cur, t, ht, hs⟩ := ih (x1 + 8) y1 (by omega) (glyphDrawn x1 y1 ch .px12 true s)
      refine ⟨cur, t, ht, ?_⟩
      rw [← clearBytes_congr hd.params]
      exact hd.trans hs

/-! ## What a request can do -/

/-- The response of a request that completes (R18, R81). -/
def responseOf : Instr → Response
  | .init => .ok
  | .send _ _ => .ok
  | .setpix x y _ => pixelResponse x.toNat y.toNat
  | .refresh => .ok
  | .clear => .ok
  | .glyph _ _ _ _ _ => .ok
  | .number _ _ _ _ _ => .ok
  | .text _ _ _ => .ok

/-- The events of a request before its link bytes: INIT's reset pulse (R77). -/
def leadEvents : Instr → List Event
  | .init => resetPulseEvents
  | .send _ _ => []
  | .setpix _ _ _ => []
  | .refresh => []
  | .clear => []
  | .glyph _ _ _ _ _ => []
  | .number _ _ _ _ _ => []
  | .text _ _ _ => []

/-- The link bytes of a request that completes, each with whether it is a command byte (R71, R77, R83, R85, R92). -/
def bytesSent (s : State) : Instr → List (Byte × Bool)
  | .init => (initBytes s.params).map (fun b => (b, true)) ++ refreshSent (zeroFB s)
  | .send isCommand value => [(value, isCommand)]
  | .setpix _ _ _ => []
  | .refresh => refreshSent s
  | .clear => refreshSent (zeroFB s)
  | .glyph _ _ _ _ _ => []
  | .number _ _ _ _ _ => []
  | .text x y chars => clearBytes s (textClears chars x.toNat y.toNat)

/-- Everything that holds of every request that completes (R95.1). -/
structure Completed (i : Instr) (s t : State) : Prop where
  ready : i = .init ↔ s.mode = .uninit
  mode : t.mode = .ready
  fault : t.fault = s.fault
  rp : t.rp = s.rp + i.words
  resp : t.resp = s.resp ++ [responseOf i]
  stream : t.stream = s.stream
  params : t.params = s.params
  wf : Memory.wf s.fb = true → Memory.wf t.fb = true
  written : ∀ c p, s.fbCell c p ≠ none → t.fbCell c p ≠ none
  trace : t.trace = s.trace ++ (leadEvents i ++ linkEvents (bytesSent s i))
  lines : t.lines = (leadEvents i ++ linkEvents (bytesSent s i)).foldl Lines.after s.lines

/-- Why a request can fault while it runs (R98, R100). -/
def FaultCause (i : Instr) (s : State) (code : FaultCode) : Prop :=
  (code = .notReady ∧ i ≠ .init ∧ s.mode = .uninit) ∨ (code = .reinit ∧ i = .init ∧ s.mode = .ready) ∨
    (code = .coordOverflow ∧ s.mode = .ready ∧
      ((∃ x y ch font normal, i = .glyph x y ch font normal) ∨ (∃ x y n font v, i = .number x y n font v) ∨
        ∃ x y chars, i = .text x y chars))

/-- The end of every request but INIT: it completes what it sent. -/
theorem completed_of_sends {i : Instr} {s u : State} (hi : i ≠ .init) (hl : leadEvents i = [])
    (hm : s.mode = .ready) (h : Sends s u (bytesSent s i)) : Completed i s (u.complete (responseOf i) i.words) where
  ready := ⟨fun e => absurd e hi, fun e => by rw [hm] at e; cases e⟩
  mode := h.mode.trans hm
  fault := h.fault
  rp := by rw [complete_rp, h.rp]
  resp := by rw [complete_resp, h.resp]
  stream := h.stream
  params := h.params
  wf := h.wf
  written := h.written
  trace := by rw [hl]; exact h.trace
  lines := by rw [hl]; exact h.lines

theorem exec_send_ready {s : State} (hm : s.mode = .ready) (c : Bool) (v : Byte) :
    exec (.send c v) s = .next ((sendByte v c s).complete .ok 1) := by
  simp only [exec, execSend, whenReady_of_ready hm]

theorem exec_setpix_ready {s : State} (hm : s.mode = .ready) (x y : Byte) (on : Bool) :
    exec (.setpix x y on) s =
      .next ((setPixelCore x.toNat y.toNat on s).complete (pixelResponse x.toNat y.toNat) 1) := by
  simp only [exec, execSetpix, whenReady_of_ready hm]

theorem exec_refresh_ready {s : State} (hm : s.mode = .ready) :
    exec .refresh s = .next ((refreshCore s).complete .ok 1) := by
  simp only [exec, execRefresh, whenReady_of_ready hm]

theorem exec_clear_ready {s : State} (hm : s.mode = .ready) :
    exec .clear s = .next ((refreshCore (zeroFB s)).complete .ok 1) := by
  simp only [exec, execClear, whenReady_of_ready hm]

theorem exec_glyph_ready {s : State} (hm : s.mode = .ready) (x y ch : Byte) (font : Font) (normal : Bool) :
    exec (.glyph x y ch font normal) s = (drawGlyphCore x.toNat y.toNat ch font normal s).finish 1 := by
  simp only [exec, execGlyph, whenReady_of_ready hm]

theorem exec_number_ready {s : State} (hm : s.mode = .ready) (x y : Byte) (n : BitVec 4) (font : Font) (v : Word) :
    exec (.number x y n font v) s = (numberDigits x.toNat y.toNat v.toNat n.toNat font n.toNat 0 s).finish 2 := by
  simp only [exec, execNumber, whenReady_of_ready hm]

theorem exec_text_ready {s : State} (hm : s.mode = .ready) (x y : Byte) (chars : List Byte) :
    exec (.text x y chars) s = (textCore chars ⟨x.toNat, y.toNat⟩ s).finish (1 + textWords chars) := by
  simp only [exec, execText, whenReady_of_ready hm]

/-- INIT in UNINIT (R77). -/
theorem exec_init_uninit {s : State} (hm : s.mode = .uninit) :
    exec .init s = .next (State.complete
      { refreshCore (zeroFB (sendInitSeq (resetPulse s))) with mode := .ready } .ok 1) := by
  simp only [exec, execInit, hm]
  rfl

theorem exec_init_ready {s : State} (hm : s.mode = .ready) : exec .init s = .next (raiseFault .reinit s) := by
  simp [exec, execInit, hm]

theorem exec_uninit {i : Instr} {s : State} (hi : i ≠ .init) (hm : s.mode = .uninit) :
    exec i s = .next (raiseFault .notReady s) := by
  cases i with
  | init => exact absurd rfl hi
  | send c v => simp only [exec, execSend, whenReady_of_uninit hm]
  | setpix x y on => simp only [exec, execSetpix, whenReady_of_uninit hm]
  | refresh => simp only [exec, execRefresh, whenReady_of_uninit hm]
  | clear => simp only [exec, execClear, whenReady_of_uninit hm]
  | glyph x y ch font normal => simp only [exec, execGlyph, whenReady_of_uninit hm]
  | number x y n font v => simp only [exec, execNumber, whenReady_of_uninit hm]
  | text x y chars => simp only [exec, execText, whenReady_of_uninit hm]

/-- What INIT sends: INIT_SEQ, then one refresh of a blank frame (R77). -/
theorem exec_init_completed {s : State} (hm : s.mode = .uninit) :
    ∃ t, exec .init s = .next t ∧ Completed .init s t ∧ t.fb = Memory.zero ∧
      t.lines = ⟨.high, .low, .high, .low⟩ := by
  have hp : (sendInitSeq (resetPulse s)).params = s.params := rfl
  have hs : linkEvents (bytesSent s .init) =
      ((initBytes s.params).flatMap fun b => sendByteEvents b true) ++ refreshEvents (zeroFB (sendInitSeq (resetPulse s))) := by
    rw [bytesSent, linkEvents_append, refreshEvents_eq, refreshSent_zeroFB hp, linkEvents, linkEvents, List.flatMap_map]
  refine ⟨_, exec_init_uninit hm, ?_, rfl, ?_⟩
  · refine ⟨by simp [hm], rfl, rfl, rfl, rfl, rfl, rfl, fun _ => wf_zero, fun c p _ => ?_, ?_, ?_⟩
    · exact fun h => nomatch (zeroFB_fbCell s c p).symm.trans h
    · rw [hs]
      simp only [complete_trace, refreshCore_trace, zeroFB_trace, sendInitSeq, emit_trace, resetPulse, leadEvents,
        List.append_assoc, emit_params]
    · rw [hs]
      simp only [complete_lines, refreshCore_lines, zeroFB_lines, sendInitSeq, emit_lines, resetPulse, leadEvents,
        List.foldl_append, emit_params]
  · have h := lines_after_bytes_res ((resetPulseEvents).foldl Lines.after s.lines)
      ((initBytes s.params).map fun b => (b, true))
    rw [List.flatMap_map] at h
    simp only [complete_lines, refreshCore_lines, zeroFB_lines, lines_after_refresh, zeroFB_fbByte, sendInitSeq,
      emit_lines, resetPulse, emit_params, h]
    rfl

/-- Every request takes a next state: it completes, or it raises one fault and changes nothing else (R95, R98, R99). -/
theorem exec_cases (i : Instr) (s : State) :
    ∃ t, exec i s = .next t ∧
      (Completed i s t ∨ ∃ code, FaultCause i s code ∧ t = raiseFault code s) := by
  cases hm : s.mode with
  | uninit =>
    by_cases hi : i = .init
    · subst hi
      obtain ⟨t, ht, hc, -⟩ := exec_init_completed hm
      exact ⟨t, ht, .inl hc⟩
    · exact ⟨_, exec_uninit hi hm, .inr ⟨_, .inl ⟨rfl, hi, hm⟩, rfl⟩⟩
  | ready =>
    cases i with
    | init => exact ⟨_, exec_init_ready hm, .inr ⟨_, .inr (.inl ⟨rfl, rfl, hm⟩), rfl⟩⟩
    | send c v =>
      refine ⟨_, exec_send_ready hm c v, .inl (completed_of_sends (i := .send c v) (by simp) rfl hm ?_)⟩
      have h := emit_sends s [(v, c)]
      rwa [show linkEvents [(v, c)] = sendByteEvents v c by simp [linkEvents]] at h
    | setpix x y on =>
      exact ⟨_, exec_setpix_ready hm x y on,
        .inl (completed_of_sends (i := .setpix x y on) (by simp) rfl hm (setPixelCore_onlyFb _ _ _ s).sends)⟩
    | refresh =>
      exact ⟨_, exec_refresh_ready hm, .inl (completed_of_sends (i := .refresh) (by simp) rfl hm (refreshCore_sends s))⟩
    | clear =>
      exact ⟨_, exec_clear_ready hm, .inl (completed_of_sends (i := .clear) (by simp) rfl hm
        ((zeroFB_onlyFb s).sends.trans (refreshCore_sends _)))⟩
    | glyph x y ch font normal =>
      rw [exec_glyph_ready hm]
      by_cases ho : x.toNat + 8 ≤ Config.coordMax ∧ y.toNat + fontHeight font ≤ Config.coordMax
      · rw [drawGlyphCore_eq_ok ho.1 ho.2, finish_ok]
        exact ⟨_, rfl, .inl (completed_of_sends (i := .glyph x y ch font normal) (by simp) rfl hm
          (glyphDrawn_onlyFb _ _ _ _ _ s).sends)⟩
      · rw [drawGlyphCore_overflow _ _ _ _ _ (by omega), finish_overflow]
        exact ⟨_, rfl, .inr ⟨_, .inr (.inr ⟨rfl, hm, .inl ⟨x, y, ch, font, normal, rfl⟩⟩), rfl⟩⟩
    | number x y n font v =>
      rw [exec_number_ready hm]
      have hn := n.isLt
      by_cases h0 : n.toNat = 0
      · rw [h0]
        exact ⟨_, rfl, .inl (completed_of_sends (i := .number x y n font v) (by simp) rfl hm (OnlyFb.refl s).sends)⟩
      · by_cases ho : x.toNat + (0 + n.toNat - 1) * digitPitch font + 8 ≤ Config.coordMax ∧
            y.toNat + fontHeight font ≤ Config.coordMax
        · rw [numberDigits_ok _ _ _ _ _ ho.2 _ _ (fun j _ hj => ?_), finish_ok]
          · exact ⟨_, rfl, .inl (completed_of_sends (i := .number x y n font v) (by simp) rfl hm
              (digitsDrawn_onlyFb _ _ _ _ _ _ _ s).sends)⟩
          · have := Nat.mul_le_mul_right (digitPitch font) (show j ≤ 0 + n.toNat - 1 by omega)
            omega
        · have hp : digitPitch font ≤ 8 := by cases font <;> decide
          have hl := fontHeight_le font
          have := Nat.mul_le_mul (show 0 + n.toNat - 1 ≤ 14 by omega) hp
          simp only [Config.coordMax] at ho
          rw [numberDigits_overflow _ _ _ _ _ (by omega) _ _ (by omega) (by simp only [Config.coordMax]; omega),
            finish_overflow]
          exact ⟨_, rfl, .inr ⟨_, .inr (.inr ⟨rfl, hm, .inr (.inl ⟨x, y, n, font, v, rfl⟩)⟩), rfl⟩⟩
    | text x y chars =>
      rw [exec_text_ready hm]
      by_cases ho : chars ≠ [] → 122 < x.toNat → y.toNat + 16 ≤ 255
      · obtain ⟨cur, t, ht, hs⟩ := textCore_sends chars x.toNat y.toNat ho s
        rw [ht, finish_ok]
        exact ⟨_, rfl, .inl (completed_of_sends (i := .text x y chars) (by simp) rfl hm hs)⟩
      · simp only [Classical.not_imp] at ho
        obtain ⟨hne, hx, hy⟩ := ho
        obtain ⟨ch, rest, rfl⟩ := List.exists_cons_of_ne_nil hne
        rw [textCore_cons_overflow ch rest hx (by omega), finish_overflow]
        exact ⟨_, rfl, .inr ⟨_, .inr (.inr ⟨rfl, hm, .inr (.inr ⟨x, y, ch :: rest, rfl⟩)⟩), rfl⟩⟩

/-! ## What a step can do -/

/-- Every next state of a step: an illegal request faulted, or a request at RP ran (R95, R99). -/
theorem step_cases {s t : State} (h : step s = .next t) :
    s.fault = .none ∧ s.rp ≠ s.stream.length ∧
      ((∃ why, decode (s.stream.drop s.rp) = .illegal why ∧ t = raiseFault .illegal s) ∨
        ∃ i n, decode (s.stream.drop s.rp) = .request i n ∧ exec i s = .next t) := by
  unfold step fetch at h
  by_cases hf : s.fault = .none
  · by_cases hr : s.rp = s.stream.length
    · simp [hf, hr] at h
    · refine ⟨hf, hr, ?_⟩
      simp only [hf, ne_eq, not_true_eq_false, if_false, hr] at h
      cases hd : decode (s.stream.drop s.rp) with
      | request i n => rw [hd] at h; exact .inr ⟨i, n, rfl, h⟩
      | illegal why =>
        rw [hd] at h
        exact .inl ⟨why, rfl, (Host.Outcome.next.inj h).symm⟩
      | incomplete => rw [hd] at h; cases h
  · simp [hf] at h

/-- A request at RP is run by the step (R38). -/
theorem step_of_request {s : State} {i : Instr} {n : Nat} (hf : s.fault = .none)
    (hd : decode (s.stream.drop s.rp) = .request i n) : step s = exec i s := by
  have hr : s.rp ≠ s.stream.length := by
    intro hr
    rw [hr, List.drop_length] at hd
    cases hd
  simp only [step, fetch, hf, hr, hd, ne_eq, not_true_eq_false, if_false]

end Sys2Proof.Machine
end

