-- ==== Sys2Proof/Tests/Slice0.lean ====
section
/-!
SUPPORT. The model's own tests.  The expected values are those of the vectors of spec/95_test_vectors.md, which each test
names, or of the encoding tables of spec/30_encoding.md.  After them, one witness for every statement of the obligations
that has hypotheses.
-/

namespace Sys2Proof.Tests

open Sys2Proof.Machine Sys2Proof.Claims

/-! ## States -/

/-- A glyph table that is zero but for one entry. -/
def oneGlyph {h : Nat} (entry : Fin 95) (bytes : Vector Byte h) : Config.GlyphTable h :=
  (Vector.replicate 95 (Vector.replicate h 0)).set entry bytes

/-- Parameters with the default link bytes and the test glyphs of section 2.6: GLYPH16['!'] and GLYPH12['!']. -/
def bangParams : Config.Params where
  timeUnit      := 1
  initSeq       := Config.defaultInitSeq
  pageSel       := Config.defaultPageSel
  colLo         := 0x00
  colHi         := 0x10
  glyph12       := oneGlyph 1 #v[0x00, 0x0F, 0, 0, 0, 0, 0, 0, 0, 0, 0, 0]
  glyph16       := oneGlyph 1 #v[0xFF, 0xFF, 0, 0, 0, 0, 0, 0, 0, 0, 0, 0, 0, 0, 0, 0]
  textClearPush := false

/-- Parameters with the test glyphs of program P4: GLYPH16['7'] and GLYPH12['A']. -/
def textParams : Config.Params :=
  { bangParams with
    glyph16 := oneGlyph 0x17 #v[0x80, 0, 0, 0, 0, 0, 0, 0, 0, 0, 0, 0, 0, 0, 0, 0],
    glyph12 := oneGlyph 0x21 #v[0xFF, 0, 0, 0, 0, 0, 0, 0, 0, 0, 0, 0] }

/-- "After INIT" (R78), with an empty TRACE and RESP and the given words ahead. -/
def readyState (ps : Config.Params) (ws : List Word) : State where
  mode   := .ready
  fault  := .none
  rp     := 0
  fb     := Memory.zero
  lines  := ⟨.high, .low, .high, .low⟩
  trace  := []
  resp   := []
  stream := ws
  params := ps

/-- Power-up with the given words as the program. -/
def startState (ws : List Word) : State := { State.reset with stream := ws, params := bangParams }

/-- A framebuffer that is written, with 0x00, only at the given columns and pages, both ascending: enough for a request that
draws nowhere else. -/
def zeroAt (columns pages : List Nat) : List Host.Cell :=
  columns.flatMap fun c => pages.map fun p => (8 * c + p, 0)

/-- The state after a step, or the same state when there is none. -/
def after (s : State) : State :=
  match step s with
  | .next t => t
  | .fault _ => s
  | .refused _ => s

/-- The framebuffer bytes of a state that are not 0x00, as (column, page, byte). -/
def lit (s : State) : List (Nat × Nat × Byte) :=
  (s.fb.filter fun e => e.2 ≠ 0).map fun e => (e.1 / 8, e.1 % 8, e.2)

/-! ## Well-formedness -/

theorem test_glyph_low_character_refused : (Instr.glyph 0 0 0x1F .px12 true).wellFormed = false := by decide

theorem test_glyph_high_character_refused : (Instr.glyph 0 0 0x7F .px12 true).wellFormed = false := by decide

theorem test_glyph_range_accepted :
    (Instr.glyph 0 0 0x20 .px12 true).wellFormed = true ∧ (Instr.glyph 0 0 0x7E .px16 false).wellFormed = true := by decide

theorem test_number_eleven_digits_refused : (Instr.number 0 0 11 .px16 1).wellFormed = false := by decide

theorem test_number_ten_digits_accepted : (Instr.number 0 0 10 .px16 1).wellFormed = true := by decide

theorem test_text_character_refused : (Instr.text 0 0 [0x41, 0x01]).wellFormed = false := by decide

/-! ## Decoding: words written out from R47 to R55 -/

theorem test_decode_init : decode [0b00010000000000000000000000000000#32] = .request .init 1 := by decide

theorem test_decode_send : decode [0b00100000000000000000000110100101#32] = .request (.send true 0xA5) 1 := by decide

theorem test_decode_send_data : decode [0b00100000000000000000000010100101#32] = .request (.send false 0xA5) 1 := by decide

theorem test_decode_setpix : decode [0b00110000000000010000100100000101#32] = .request (.setpix 5 9 true) 1 := by decide

theorem test_decode_refresh : decode [0b01000000000000000000000000000000#32] = .request .refresh 1 := by decide

theorem test_decode_clear : decode [0b01010000000000000000000000000000#32] = .request .clear 1 := by decide

theorem test_decode_glyph :
    decode [0b01100001001000010000010001111100#32] = .request (.glyph 124 4 0x21 .px16 false) 1 := by decide

theorem test_decode_number :
    decode [0b01110000000000100001010000001010#32, 42#32] = .request (.number 10 20 2 .px12 42) 2 := by decide

theorem test_decode_text :
    decode [0b10000000000000000010000001111000#32, 0x00434241#32] = .request (.text 120 32 [0x41, 0x42, 0x43]) 2 := by
  decide

/-- T-6: four characters take two string words. -/
theorem test_decode_text_two_words :
    decode [0x80000000#32, 0x44434241#32, 0#32] = .request (.text 0 0 [0x41, 0x42, 0x43, 0x44]) 3 := by decide

/-- X-1, X-2, X-3: reserved OPs. -/
theorem test_decode_reserved_op :
    decode [0x00000000#32] = .illegal .reservedOp ∧ decode [0x90000000#32] = .illegal .reservedOp ∧
      decode [0xF0000000#32] = .illegal .reservedOp := by decide

/-- I-3, S7, S8, P-12, F-6, G-19, N-8, T-13: reserved bits. -/
theorem test_decode_reserved_bits :
    ([[0x10000001#32], [0x200003A5#32], [0x28000000#32], [0x30020000#32], [0x40000001#32], [0x67210000#32],
        [0x71140000#32, 1#32], [0x80010000#32, 0x41#32]].all fun ws => decide (decode ws = .illegal .reservedBits)) =
      true := by decide

/-- G-17, G-18, N-7, T-9, T-10: operand ranges and the bytes behind the terminator. -/
theorem test_decode_ranges :
    decode [0x621F0000#32] = .illegal .charRange ∧ decode [0x627F0000#32] = .illegal .charRange ∧
      decode [0x710B0000#32, 1#32] = .illegal .digitCount ∧ decode [0x80000000#32, 0x00000141#32] = .illegal .charRange ∧
      decode [0x80000000#32, 0x41000041#32] = .illegal .textPadding := by decide

/-- N-9, T-11: incomplete requests. -/
theorem test_decode_incomplete :
    decode [0x71040000#32] = .incomplete ∧ decode [0x80000000#32, 0x41414141#32] = .incomplete := by decide

/-- The table's numbering: the second word's bits are 63 to 32; operand words without bits are zero (R53, R54). -/
theorem test_decodeTableWord :
    decodeTableWord 64 0x0000002A7002140A = some (.number 10 20 2 .px12 42) ∧
      decodeTableWord 32 0x71040000 = some (.number 0 0 4 .px16 0) ∧
      decodeTableWord 32 0x80000078 = some (.text 120 0 []) ∧ decodeTableWord 32 0x90000000 = none := by decide

/-! ## One step of each request -/

/-- E8, I-5: INIT from power-up begins with the pulse, then INIT_SEQ as command bytes; the state after it is I-1's. -/
theorem test_init_pulse_and_commands :
    let t := after (startState [0x10000000])
    t.trace.take 3 = [.line .res false, .wait 100, .line .res true] ∧
      (decoded (t.trace.take 628)).map (·.2) =
        [0xAE, 0xD5, 0x80, 0xA8, 0x3F, 0xD3, 0x00, 0x40, 0x8D, 0x14, 0x20, 0x02, 0xA1, 0xC0, 0xDA, 0x12, 0x81, 0xEF,
          0xD9, 0xF1, 0xDB, 0x30, 0xA4, 0xA6, 0xAF] := by decide +kernel

/-- I-1: the state after INIT. -/
theorem test_init_state :
    let t := after (startState [0x10000000])
    t.mode = .ready ∧ t.fault = .none ∧ t.resp = [.ok] ∧ t.rp = 1 ∧ lit t = [] := by decide +kernel

/-- S1: SEND.C 0xA5. -/
theorem test_send_command :
    let t := after (readyState bangParams [0x200001A5])
    t.trace = .line .dc true :: [true, false, true, false, false, true, false, true].flatMap
        (fun b => [.line .clk false, .line .din b, .line .clk true]) ∧
      decoded t.trace = [(.cmd, 0xA5)] ∧ t.lines = ⟨.high, .high, .high, .high⟩ ∧ t.resp = [.ok] := by decide +kernel

/-- S5: SEND.D 0x01. -/
theorem test_send_data :
    let t := after (readyState bangParams [0x20000001])
    decoded t.trace = [(.data, 0x01)] ∧ t.lines = ⟨.high, .high, .high, .low⟩ := by decide +kernel

/-- P-3: SETPIX 5, 9, 1. -/
theorem test_setpix_on :
    let t := after (readyState bangParams [0x30010905])
    lit t = [(5, 6, 0x40)] ∧ t.resp = [.ok] ∧ t.trace = [] ∧ t.rp = 1 := by decide +kernel

/-- P-5: SETPIX 128, 0, 1. -/
theorem test_setpix_out_of_bounds :
    let t := after (readyState bangParams [0x30010080])
    lit t = [] ∧ t.resp = [.outOfBounds] ∧ t.fault = .none ∧ t.rp = 1 := by decide +kernel

/-- F-3: after SETPIX 127, 63, 1 a REFRESH sends (DATA, 0x01) at position 130, and then page 1's select command. -/
theorem test_refresh_position :
    let t := after { readyState bangParams [0x40000000] with fb := Memory.write Memory.zero (fbaddr 127 0) 0x01 }
    decoded ((t.trace.drop (25 * 130)).take 50) = [(.data, 0x01), (.cmd, 0xB1)] := by decide +kernel

/-- F-5: CLEAR over a lit byte blanks it and sends the blank frame. -/
theorem test_clear :
    let t := after { readyState bangParams [0x50000000] with fb := Memory.write Memory.zero (fbaddr 127 0) 0x01 }
    lit t = [] ∧ t.resp = [.ok] ∧ decoded ((t.trace.drop (25 * 130)).take 50) = [(.data, 0x00), (.cmd, 0xB1)] := by
  decide +kernel

/-- G-2: GLYPH 0, 4, '!', 16, N crosses two page borders. -/
theorem test_glyph_pages :
    lit (after (readyState bangParams [0x63210400])) = [(0, 5, 0xF0), (0, 6, 0xFF), (0, 7, 0x0F)] := by decide +kernel

/-- G-6: the 12-row font fills column 1 from bit 12 on. -/
theorem test_glyph_second_column : lit (after (readyState bangParams [0x62210000])) = [(1, 7, 0xF0)] := by
  decide +kernel

/-- G-7: with GLYPH_COLUMN_BREAK the low nibble of byte 1 is dropped. -/
theorem test_glyph_column_break :
    lit (drawGlyphWith true 0 0 0x21 .px12 true (readyState bangParams [])).state = [] := by decide +kernel

/-- N-1: NUMBER 0, 0, 7, 4, 16 draws "0007". -/
theorem test_number_leading_zeros :
    let t := after { readyState textParams [0x71040000, 0x00000007] with fb := zeroAt (List.range 32) [6, 7] }
    lit t = [(24, 7, 0x80)] ∧ t.rp = 2 := by decide +kernel

/-- N-10: NUMBER 180, 0, 0, 10, 16 overflows in its tenth digit and changes nothing. -/
theorem test_number_overflow :
    let s := readyState textParams [0x710A00B4, 0x00000000]
    after s = { s with fault := .coordOverflow } := by decide +kernel

/-- T-1: TEXT 120, 0, "ABC". -/
theorem test_text_wrap :
    let t := after { readyState textParams [0x80000078, 0x00434241] with
      fb := zeroAt (List.range 16 ++ List.range' 120 8) [4, 5, 6, 7] }
    lit t = [(120, 7, 0xFF)] ∧ t.rp = 2 ∧ t.resp = [.ok] := by decide +kernel

/-- T-8: TEXT 122, 240, "A" does not wrap; y = 240 clears, and 'A' is drawn at (0, 0). -/
theorem test_text_clear :
    lit (after { readyState textParams [0x8000F07A, 0x00000041] with fb := zeroAt [9] [3] }) = [(0, 7, 0xFF)] := by
  decide +kernel

/-! ## Faults, and runs that end -/

/-- X-4, X-5, P5: at power-up ILLEGAL outranks NOT_READY, and a request but INIT is NOT_READY. -/
theorem test_power_up_faults :
    after (startState [0x90000000]) = { startState [0x90000000] with fault := .illegal } ∧
      after (startState [0x40000000]) = { startState [0x40000000] with fault := .notReady } ∧
      after (startState [0x30010000]) = { startState [0x30010000] with fault := .notReady } := by decide +kernel

/-- X-6, I-2: INIT in READY. -/
theorem test_reinit :
    after (readyState bangParams [0x10000000]) = { readyState bangParams [0x10000000] with fault := .reinit } := by
  decide +kernel

/-- X-7, X-8, N-9: a halted, a finished and a stuck block have no step. -/
theorem test_no_step :
    step { readyState bangParams [0x40000000] with fault := .illegal } = .fault (.halted .illegal) ∧
      step (readyState bangParams []) = .fault .endOfStream ∧ step (readyState bangParams [0x71040000]) = .fault .stuck :=
  ⟨rfl, rfl, rfl⟩

/-- A placed word runs next from power-up, where a request but INIT faults NOT_READY (R109). -/
theorem test_withFetchWord :
    fetch (State.reset.withFetchWord 32 0x30010905) = .request (.setpix 5 9 true) 1 ∧
      fetch (State.reset.withFetchWord 64 0x0000002A7002140A) = .request (.number 10 20 2 .px12 42) 2 := by decide

/-! ## The assembler -/

/-- R62, R63: the lines of programs P1 and P2 and of vectors G-1, N-5 and T-1, and two pseudo-instructions. -/
theorem test_assemble :
    Asm.assemble "INIT ; reset\nSETPIX 127, 63, 1\nSEND.C 0x81\nSEND.D 0x3C\nREFRESH\nCLEAR\nGLYPH 0, 0, '!', 16, N".toList =
        some [0x10000000, 0x30013F7F, 0x20000181, 0x2000003C, 0x40000000, 0x50000000, 0x63210000] ∧
      Asm.assemble "NUMBER 10, 20, 42, 2, 12\nTEXT 120, 0, \"ABC\"\n\nPSET 5, 9\nDATA 0x3C".toList =
        some [0x7002140A, 0x0000002A, 0x80000078, 0x00434241, 0x30010905, 0x2000003C] := by decide +kernel

/-- A mnemonic outside the tables of R62 and R63, or an operand too wide for its field, is not assembled. -/
theorem test_assemble_refuses :
    Asm.assemble "NOP".toList = none ∧ Asm.assemble "SEND.C 256".toList = none ∧ Asm.assemble "SETPIX 1, 2".toList = none := by
  decide +kernel

/-! ## Witnesses: states and operands that meet the hypotheses of each statement -/

/-- An incomplete list of words is one decode finds incomplete; used to show that a list is not incomplete. -/
theorem decode_of_incomplete {ws : List Word} (h : Incomplete ws) : decode ws = .incomplete := by
  obtain ⟨w, rest, rfl, h⟩ := h
  refine decode_eq_incomplete_iff.mpr ?_
  rcases h with ⟨h, hr⟩ | ⟨h, hr⟩
  · exact .inl ⟨congrArg BitVec.toNat h, hr⟩
  · exact .inr ⟨congrArg BitVec.toNat h, (stringWords_eq_none_iff rest).mpr hr⟩

/-- The state at a boundary before a SEND. -/
def sendState : State := readyState bangParams [0x200001A5]

/-- The state at a boundary before an out-of-bounds SETPIX. -/
def outState : State := readyState bangParams [0x30010080]

/-- The state at a boundary before a TEXT of the empty string. -/
def textState : State := readyState bangParams [0x8000007B, 0]

/-- The state at a boundary before a GLYPH whose coordinates overflow. -/
def overflowState : State := readyState bangParams [0x632100F8]

theorem witness_PowerUpState : decode [0x10000000#32] = .request .init 1 := by decide

theorem witness_DecodeOfEncode :
    (Instr.glyph 255 255 0x7E .px16 true).wellFormed = true ∧ (Instr.number 255 255 10 .px16 0xFFFFFFFF).wellFormed = true ∧
      (Instr.text 255 255 [0x20, 0x7E, 0x41, 0x42]).wellFormed = true := by decide

theorem witness_EncodeOfDecode :
    decode [0x80000000#32, 0x44434241#32, 0#32] = .request (.text 0 0 [0x41, 0x42, 0x43, 0x44]) 3 ∧
      decode [0x710A00FF#32, 0xFFFFFFFF#32] = .request (.number 255 0 10 .px16 0xFFFFFFFF) 2 := by decide

/-- One state for each end of the reserved OPs. -/
theorem witness_ReservedOpcodesAreIllegal :
    [0x00000000, 0x90000000, 0xF0000000].all (fun w : Word =>
      decide ((startState [w]).fault = .none ∧ (startState [w]).stream.drop (startState [w]).rp = [w] ∧
        w.extractLsb' 28 4 ∈ [0x0#4, 0x9#4, 0xA#4, 0xB#4, 0xC#4, 0xD#4, 0xE#4, 0xF#4])) = true := by decide

/-- For each format, complete words with the lowest reserved bit set, and the highest. -/
theorem witness_ReservedBitsAreIllegal :
    (∀ ws ∈ [[0x10000001#32], [0x18000000#32], [0x20000200#32], [0x28000000#32], [0x30020000#32], [0x38000000#32],
        [0x40000001#32], [0x48000000#32], [0x50000001#32], [0x58000000#32], [0x64200000#32], [0x68200000#32],
        [0x70100000#32, 0#32], [0x78000000#32, 0#32], [0x80010000#32, 0#32], [0x88000000#32, 0#32]],
      ¬Incomplete ws ∧ ∃ w rest, ws = w :: rest ∧ w &&& reservedMask (w.extractLsb' 28 4) ≠ 0) := by
  intro ws h
  refine ⟨fun hi => ?_, ?_⟩
  · have : ∀ ws ∈ [[0x10000001#32], [0x18000000#32], [0x20000200#32], [0x28000000#32], [0x30020000#32], [0x38000000#32],
        [0x40000001#32], [0x48000000#32], [0x50000001#32], [0x58000000#32], [0x64200000#32], [0x68200000#32],
        [0x70100000#32, 0#32], [0x78000000#32, 0#32], [0x80010000#32, 0#32], [0x88000000#32, 0#32]],
        decode ws ≠ .incomplete := by decide
    exact this ws h (decode_of_incomplete hi)
  · have : ∀ ws ∈ [[0x10000001#32], [0x18000000#32], [0x20000200#32], [0x28000000#32], [0x30020000#32], [0x38000000#32],
        [0x40000001#32], [0x48000000#32], [0x50000001#32], [0x58000000#32], [0x64200000#32], [0x68200000#32],
        [0x70100000#32, 0#32], [0x78000000#32, 0#32], [0x80010000#32, 0#32], [0x88000000#32, 0#32]],
        ws.head?.any (fun w => decide (w &&& reservedMask (w.extractLsb' 28 4) ≠ 0)) = true := by decide
    have hw := this ws h
    cases ws with
    | nil => cases hw
    | cons w rest => exact ⟨w, rest, rfl, of_decide_eq_true hw⟩

/-- T-10: the terminator is byte 1 and byte 3 is not zero. -/
theorem witness_ReservedBitsAreIllegal_padding :
    ¬Incomplete [0x80000000#32, 0x41000041#32] ∧ (0x80000000#32).extractLsb' 28 4 = 0x8#4 ∧
      ∃ j k : Nat, j < k ∧ (wordBytes 0x41000041#32)[j]? = some 0 ∧ ∃ b, (wordBytes 0x41000041#32)[k]? = some b ∧ b ≠ 0 :=
  ⟨fun h => absurd (decode_of_incomplete h) (by decide), by decide, 1, 3, by decide, by decide, 0x41, by decide, by decide⟩

/-- CH one below and one above its range; N one above its range; a character one below and one above its range. -/
theorem witness_OperandRangesAreIllegal :
    ((0x621F0000#32).extractLsb' 28 4 = 0x6#4 ∧ ((0x621F0000#32).extractLsb' 16 8).toNat < 0x20) ∧
      ((0x627F0000#32).extractLsb' 28 4 = 0x6#4 ∧ 0x7E < ((0x627F0000#32).extractLsb' 16 8).toNat) ∧
      ((0x710B0000#32).extractLsb' 28 4 = 0x7#4 ∧ 10 < ((0x710B0000#32).extractLsb' 16 4).toNat) ∧
      (0x80000000#32).extractLsb' 28 4 = 0x8#4 ∧ (∀ v ∈ [0x1F414141#32], ∀ b ∈ wordBytes v, b ≠ 0) ∧
      (0 : Byte) ∈ wordBytes 0x0000007F#32 ∧
      (∃ ch ∈ (([0x1F414141#32] ++ [0x0000007F#32]).flatMap wordBytes).takeWhile (· ≠ 0), ch.toNat < 0x20) ∧
      ∃ ch ∈ (([0x1F414141#32] ++ [0x0000007F#32]).flatMap wordBytes).takeWhile (· ≠ 0), 0x7E < ch.toNat :=
  ⟨by decide, by decide, by decide, by decide, List.forall_mem_singleton.2 (by simp [wordBytes]; decide), by decide, ⟨0x1F, by decide, by decide⟩, ⟨0x7F, by decide, by decide⟩⟩

/-- A completed request, for the statements about completed requests: SEND, with no partial byte before it. -/
theorem witness_completed :
    Fetches sendState (.send true 0xA5) 1 ∧ Completes sendState (after sendState) ∧ 8 ∣ risingEdges sendState.trace :=
  ⟨⟨rfl, by decide⟩, ⟨rfl, rfl⟩, by decide⟩

/-- A completed INIT from power-up. -/
theorem witness_completed_init :
    Fetches (startState [0x10000000]) .init 1 ∧ Completes (startState [0x10000000]) (after (startState [0x10000000])) ∧
      8 ∣ risingEdges (startState [0x10000000]).trace :=
  ⟨⟨rfl, by decide⟩, ⟨rfl, rfl⟩, by decide⟩

/-- A decoded request of each length: one word, two, and three with a text's two string words. -/
theorem witness_RequestLengths :
    decode [0x200001A5#32] = .request (.send true 0xA5) 1 ∧
      decode [0x71040000#32, 7#32] = .request (.number 0 0 4 .px16 7) 2 ∧
      decode [0x80000000#32, 0x44434241#32, 0#32, 5#32] = .request (.text 0 0 [0x41, 0x42, 0x43, 0x44]) 3 ∧
      Fetches sendState (.send true 0xA5) 1 ∧ Completes sendState (after sendState) :=
  ⟨by decide, by decide, by decide, witness_completed.1, witness_completed.2.1⟩

theorem witness_DecodeReadsOnlyItsWords :
    decode [0x71040000#32, 7#32, 9#32] = .request (.number 0 0 4 .px16 7) 2 ∧
      exec (.send true 0xA5) sendState = .next (after sendState) := ⟨by decide, rfl⟩

/-- Both kinds of incomplete request, and a step that answers stuck. -/
theorem witness_IncompleteRequestsAreStuck :
    (readyState bangParams [0x71040000]).fault = .none ∧ Incomplete [0x71040000#32] ∧
      Incomplete [0x80000000#32, 0x41414141#32] ∧ step (readyState bangParams [0x71040000]) = .fault .stuck :=
  ⟨rfl, ⟨_, _, rfl, .inl ⟨by decide, rfl⟩⟩, ⟨_, _, rfl, .inr ⟨by decide, List.forall_mem_singleton.2 (by simp [wordBytes]; decide)⟩⟩, rfl⟩

theorem witness_StepRunsDecodedRequest : Fetches sendState (.send true 0xA5) 1 := witness_completed.1

theorem witness_PlacedWordRunsNext : decodeTableWord 32 0x200001A5 = some (.send true 0xA5) := by decide

theorem witness_RequestOutcomes : sendState.fault = .none ∧ sendState.rp ≤ sendState.stream.length := by decide

/-- A fault raised by decode, and one raised while a request runs. -/
theorem witness_FaultEntryIsPrecise :
    (step (readyState bangParams [0x90000000]) = .next (after (readyState bangParams [0x90000000])) ∧
        (after (readyState bangParams [0x90000000])).fault ≠ .none) ∧
      step overflowState = .next (after overflowState) ∧ (after overflowState).fault ≠ .none :=
  ⟨⟨rfl, by decide⟩, by rw [after]; rfl, by decide +kernel⟩

/-- Each clause of the order of faults. -/
theorem witness_FaultPriority :
    ((readyState bangParams [0x71040000]).rp < (readyState bangParams [0x71040000]).stream.length ∧
        Incomplete [0x71040000#32]) ∧
      IsIllegal (decode [0x90000000#32]) ∧
      (decode [0x40000000#32] = .request .refresh 1 ∧ (startState [0x40000000]).mode = .uninit) ∧
      (decode [0x10000000#32] = .request .init 1 ∧ (readyState bangParams [0x10000000]).mode = .ready) ∧
      ((Instr.glyph 0xF8 0 0x21 .px16 true = .init ↔ overflowState.mode = .uninit) ∧
        step overflowState = .next (after overflowState)) :=
  ⟨⟨by decide, _, _, rfl, .inl ⟨by decide, rfl⟩⟩, ⟨.reservedOp, by decide⟩, ⟨by decide, rfl⟩, ⟨by decide, rfl⟩, by decide,
    by rw [after]; rfl⟩

theorem witness_FirstRequestMustBeInit :
    decode [0x10000000#32] = .request .init 1 ∧ decode [0x40000000#32] = .request .refresh 1 := by decide

/-- A step with a next state, for the statements about every step: one that completes. -/
theorem witness_step : step sendState = .next (after sendState) := rfl

/-- A step that faults, and a state that has faulted. -/
theorem witness_FaultIsWrittenOnce :
    step (startState [0x40000000]) = .next (after (startState [0x40000000])) ∧
      (after (startState [0x40000000])).fault ≠ (startState [0x40000000]).fault := ⟨rfl, by decide⟩

theorem witness_ModeIsSetOnceByInit :
    (startState [0x10000000]).mode = .uninit ∧
      step (startState [0x10000000]) = .next (after (startState [0x10000000])) := ⟨rfl, rfl⟩

/-- A completed SETPIX that answers OUT_OF_BOUNDS, and a request that faults. -/
theorem witness_ResponsesAreAppended :
    (step outState = .next (after outState) ∧ (after outState).fault = .none ∧ (after outState).resp = [.outOfBounds]) ∧
      step (startState [0x40000000]) = .next (after (startState [0x40000000])) ∧
      (after (startState [0x40000000])).fault ≠ .none := ⟨⟨rfl, rfl, rfl⟩, rfl, by decide⟩

/-- A step that is not INIT's, and a completed INIT. -/
theorem witness_ResetLineMovesOnlyInInit :
    (step sendState = .next (after sendState) ∧ ∀ n, ¬Fetches sendState .init n) ∧
      Fetches (startState [0x10000000]) .init 1 ∧
      Completes (startState [0x10000000]) (after (startState [0x10000000])) := by
  refine ⟨⟨rfl, fun n h => ?_⟩, witness_completed_init.1, witness_completed_init.2.1⟩
  have := witness_completed.1.2.symm.trans h.2
  cases this

/-- A SETPIX, and a TEXT whose layout does not clear. -/
theorem witness_DrawingDrivesNoLine :
    (Fetches outState (.setpix 128 0 true) 1 ∧ step outState = .next (after outState)) ∧
      Fetches textState (.text 123 0 []) 2 ∧ step textState = .next (after textState) ∧ Composite (.text 123 0 []) ∧
      layoutClears [] 123 0 = 0 :=
  ⟨⟨⟨rfl, by decide⟩, rfl⟩, ⟨rfl, by decide⟩, rfl, trivial, rfl⟩

/-- The invariant holds of a state from which a step has a next state. -/
theorem witness_StepKeepsInvariant :
    (State.reset.load [0x40000000]).Inv ∧
      step (State.reset.load [0x40000000]) = .next (after (State.reset.load [0x40000000])) := by
  refine ⟨⟨rfl, by decide, rfl, by decide, fun _ => ⟨fun _ _ => rfl, rfl, rfl, rfl⟩, fun h => nomatch h⟩, rfl⟩

theorem witness_PowerUpFramebufferIsUnobservable :
    (startState [0x10000000]).mode = .uninit ∧
      step (startState [0x10000000]) = .next (after (startState [0x10000000])) := ⟨rfl, rfl⟩

/-- READY, for the statements whose one hypothesis it is. -/
theorem witness_ready : sendState.mode = .ready := rfl

/-- UNINIT, for the statement about INIT. -/
theorem witness_InitTraceAndFrame : State.reset.mode = .uninit := rfl

theorem witness_SendByteOnTheLink : 8 ∣ risingEdges sendState.trace := by decide

theorem witness_EventAndByteCounts : State.reset.params.initSeq = Config.defaultInitSeq := rfl

/-- The rows at both ends of pages 7 and 0, and the bit lanes at both ends of a byte. -/
theorem witness_PixelLanes :
    (7 : Row).val ≤ 7 ∧ 56 ≤ (56 : Row).val ∧ (0 : Row).val = 8 * (7 - (7 : Page).val) + (7 - (7 : Fin 8).val) ∧
      (63 : Row).val = 8 * (7 - (0 : Page).val) + (7 - (0 : Fin 8).val) := by decide

/-- The last pixel in range, and the first out of range in each coordinate. -/
theorem witness_SetpixResult :
    sendState.mode = .ready ∧ (127 : Column).val = (0x7F : Byte).toNat ∧ (63 : Row).val = (0x3F : Byte).toNat ∧
      127 < (0x80 : Byte).toNat ∧ 63 < (0x40 : Byte).toNat := by decide

/-- Both hypotheses of the first clause, and a step that answers OUT_OF_BOUNDS. -/
theorem witness_SetpixOutOfBounds :
    (outState.mode = .ready ∧ 127 < (0x80 : Byte).toNat) ∧ (outState.mode = .ready ∧ 63 < (0x40 : Byte).toNat) ∧
      step outState = .next (after outState) ∧ (after outState).resp = outState.resp ++ [.outOfBounds] :=
  ⟨by decide, by decide, rfl, rfl⟩

theorem witness_RefreshPositions :
    sendState.mode = .ready ∧ 8 ∣ risingEdges sendState.trace ∧
      exec .refresh sendState = .next ((refreshCore sendState).complete .ok 1) :=
  ⟨rfl, by decide, exec_refresh_ready rfl⟩

/-- Two requests of each kind, one after the other. -/
theorem witness_RepeatedRequests :
    (exec (.setpix 128 0 true) outState = .next (after outState) ∧
        exec (.setpix 128 0 true) (after outState) = .next ((after outState).complete .outOfBounds 1)) ∧
      (∃ t u, exec .refresh sendState = .next t ∧ exec .refresh t = .next u) ∧
      ∃ t u, exec .clear sendState = .next t ∧ exec .clear t = .next u :=
  ⟨⟨rfl, rfl⟩, ⟨_, _, exec_refresh_ready rfl, exec_refresh_ready (by rw [complete_mode, refreshCore_mode]; rfl)⟩,
    ⟨_, _, exec_clear_ready rfl, exec_clear_ready (by rw [complete_mode, refreshCore_mode]; rfl)⟩⟩

/-- The first and the last character of the tables, and the last byte index of each font. -/
theorem witness_GlyphByteRule :
    (0x20 ≤ (0x20 : Byte).toNat ∧ (0x20 : Byte).toNat ≤ 0x7E) ∧ (0x20 ≤ (0x7E : Byte).toNat ∧ (0x7E : Byte).toNat ≤ 0x7E) ∧
      (11 : Fin 12).val = 11 ∧ (15 : Fin 16).val = 15 := by decide

/-- The largest coordinates at which each font completes (G-11, G-13, G-15). -/
theorem witness_GlyphPixels :
    sendState.mode = .ready ∧ (247 : Byte).toNat + 8 ≤ 255 ∧ (239 : Byte).toNat + height .px16 ≤ 255 ∧
      (243 : Byte).toNat + height .px12 ≤ 255 := by decide

/-- The smallest coordinates at which a glyph overflows (G-12, G-14, G-16). -/
theorem witness_GlyphOverflow :
    sendState.mode = .ready ∧ 255 < (248 : Byte).toNat + 8 ∧ 255 < (240 : Byte).toNat + height .px16 ∧
      255 < (244 : Byte).toNat + height .px12 := by decide

theorem witness_GlyphColumnBreakVariant : 249 + 6 ≤ 255 ∧ 243 + 12 ≤ 255 := by decide

theorem witness_DigitsSpellTheNumber : 10 ≤ 10 ∧ 0xFFFFFFFF < 2 ^ 32 ∧ 9 < 10 ∧ 7 < 10 ^ (10 - 1 - 8) := by decide

/-- N = 0, and the largest x at which ten digits complete in each font. -/
theorem witness_NumberPixels :
    sendState.mode = .ready ∧ (0 : BitVec 4) = 0 ∧
      ((175 : Byte).toNat + ((10 : BitVec 4).toNat - 1) * (height .px16 / 2) + 8 ≤ 255 ∧
        (239 : Byte).toNat + height .px16 ≤ 255) ∧
      (193 : Byte).toNat + ((10 : BitVec 4).toNat - 1) * (height .px12 / 2) + 8 ≤ 255 := by decide

theorem witness_NumberOverflow :
    sendState.mode = .ready ∧ (10 : BitVec 4) ≠ 0 ∧
      255 < (176 : Byte).toNat + ((10 : BitVec 4).toNat - 1) * (height .px16 / 2) + 8 ∧
      255 < (240 : Byte).toNat + height .px16 := by decide

/-- A text that does not overflow: T-8, at the largest x that does not wrap. -/
theorem witness_TextLayout : sendState.mode = .ready ∧ ¬TextOverflows [0x41] 122 240 :=
  ⟨rfl, fun h => absurd h.2.1 (by decide)⟩

theorem witness_TextStoresOnlyInCells :
    textState.mode = .ready ∧ exec (.text 123 0 []) textState = .next (after textState) ∧ layoutClears [] 123 0 = 0 :=
  ⟨rfl, rfl, rfl⟩

/-- A text that overflows (T-7), and one that does not. -/
theorem witness_TextOverflow :
    (sendState.mode = .ready ∧ sendState.fault = .none) ∧ TextOverflows [0x41] 123 240 ∧
      exec (.text 123 240 [0x41]) sendState = .next (raiseFault .coordOverflow sendState) ∧
      exec (.text 123 0 []) textState = .next (after textState) :=
  ⟨⟨rfl, rfl⟩, ⟨by decide, by decide, by decide⟩, rfl, rfl⟩

theorem witness_TextClearErases :
    sendState.mode = .ready ∧ ¬TextOverflows [0x41] 0 59 ∧ 0 < layoutClears [0x41] 0 59 :=
  ⟨rfl, fun h => absurd h.2.1 (by decide), by decide⟩

theorem witness_CompositesAnswerOk :
    Fetches textState (.text 123 0 []) 2 ∧ Composite (.text 123 0 []) ∧ step textState = .next (after textState) :=
  ⟨⟨rfl, by decide⟩, trivial, rfl⟩

end Sys2Proof.Tests
end

section
/-!
SUPPORT. The length of a decoded request (R46), what stands at RP when it is fetched (R95, R100), and a step's next state
as one of two cases: the request at RP completed, or one fault was raised (R95, R99).
-/

namespace Sys2Proof.Machine

open Sys2Proof.Claims

/-! ## The length of a decoded request -/

theorem wordBytes_flatMap_length (ws : List Word) : (ws.flatMap wordBytes).length = 4 * ws.length :=
  length_flatMap_const ws wordBytes 4 fun _ _ => rfl

/-- The string words found for a TEXT are as many as its characters need, and all stand in the stream (R46, R55.2). -/
theorem stringWords_length {rest ws : List Word} (h : stringWords rest = some ws) :
    textWords ((ws.flatMap wordBytes).takeWhile (· ≠ 0)) = ws.length ∧ ws.length ≤ rest.length := by
  obtain ⟨pre, last, post, rfl, rfl, hpre, hlast⟩ := (stringWords_eq_some_iff rest ws).mp h
  have hall : ∀ b ∈ pre.flatMap wordBytes, decide (b ≠ 0) = true := by
    simpa using fun b v hv hb => hpre v hv b hb
  have hcut : ((wordBytes last).takeWhile (· ≠ 0)).length < 4 := by
    refine lt_of_le_of_ne (List.takeWhile_sublist _).length_le fun he => ?_
    have hself : (wordBytes last).takeWhile (· ≠ 0) = wordBytes last := (List.takeWhile_sublist _).eq_of_length he
    simpa using List.takeWhile_eq_self_iff.mp hself 0 hlast
  refine ⟨?_, by simp⟩
  rw [List.flatMap_append, List.flatMap_singleton, List.takeWhile_append_of_pos hall, textWords, List.length_append,
    wordBytes_flatMap_length, List.length_append, List.length_singleton]
  omega

/-- A decoded request has its own length, and its words all stand in the stream (R46). -/
theorem decode_length {ws : List Word} {i : Instr} {n : Nat} (h : decode ws = .request i n) :
    n = i.words ∧ n ≤ ws.length := by
  cases ws with
  | nil => cases h
  | cons w rest =>
    rcases decode_eq_request_iff.mp h with ⟨-, -, rfl, rfl⟩ | ⟨-, -, rfl, rfl⟩ | ⟨-, -, rfl, rfl⟩ | ⟨-, -, rfl, rfl⟩ |
      ⟨-, -, rfl, rfl⟩ | ⟨-, -, -, rfl, rfl⟩ | ⟨-, w1, r, rfl, -, -, -, rfl, rfl⟩ | ⟨-, ws, hws, -, -, -, rfl, rfl⟩
    iterate 7 exact ⟨rfl, by simp⟩
    obtain ⟨htext, hle⟩ := stringWords_length hws
    exact ⟨by rw [textOf, Instr.words, htext], by rw [List.length_cons]; omega⟩

theorem fetches_length {s : State} {i : Instr} {n : Nat} (h : Fetches s i n) :
    n = i.words ∧ s.rp + n ≤ s.stream.length := by
  obtain ⟨hn, hle⟩ := decode_length h.2
  have hpos : 0 < i.words := by cases i <;> simp [Instr.words]
  rw [List.length_drop] at hle
  exact ⟨hn, by omega⟩

/-! ## Fetch, by what decode finds at RP -/

/-- Where decode finds a request, RP is not at the end of the stream (R95.4). -/
theorem rp_ne_end {s : State} (h : decode (s.stream.drop s.rp) ≠ .incomplete) : s.rp ≠ s.stream.length := by
  intro hr
  rw [hr, List.drop_length] at h
  exact h rfl

theorem fetch_of_fetches {s : State} {i : Instr} {n : Nat} (h : Fetches s i n) : fetch s = .request i n := by
  have hr := rp_ne_end (s := s) (by simp [h.2])
  simp only [fetch, h.1, h.2, hr, ne_eq, not_true_eq_false, if_false]

theorem step_of_illegal {s : State} {why : IllegalReason} (hf : s.fault = .none)
    (hd : decode (s.stream.drop s.rp) = .illegal why) : step s = .next (raiseFault .illegal s) := by
  have hr := rp_ne_end (s := s) (by simp [hd])
  simp only [step, fetch, hf, hd, hr, ne_eq, not_true_eq_false, if_false]

/-! ## A step completes a request or raises a fault -/

theorem FaultCause.ne_none {i : Instr} {s : State} {code : FaultCode} (h : FaultCause i s code) : code ≠ .none := by
  rcases h with ⟨rfl, -⟩ | ⟨rfl, -⟩ | ⟨rfl, -⟩ <;> simp

/-- Every next state of a step: the request at RP completed, or one fault was raised and nothing else changed
(R95, R99). -/
theorem step_completes_or_faults {s t : State} (h : step s = .next t) :
    (∃ i, Fetches s i i.words ∧ exec i s = .next t ∧ Completed i s t) ∨
      ∃ code, code ≠ .none ∧ t = raiseFault code s := by
  obtain ⟨hf, -, ⟨why, -, rfl⟩ | ⟨i, n, hd, he⟩⟩ := step_cases h
  · exact .inr ⟨.illegal, by simp, rfl⟩
  · obtain ⟨u, hu, hc⟩ := exec_cases i s
    obtain rfl : u = t := Host.Outcome.next.inj (hu.symm.trans he)
    rcases hc with hc | ⟨code, hcause, rfl⟩
    · obtain rfl := (decode_length hd).1
      exact .inl ⟨i, ⟨hf, hd⟩, he, hc⟩
    · exact .inr ⟨code, hcause.ne_none, rfl⟩

theorem fault_none_of_step {s t : State} (h : step s = .next t) : s.fault = .none := (step_cases h).1

/-- A request that completes in UNINIT is INIT, which leaves a zeroed framebuffer and the lines of R78. -/
theorem init_of_completed_uninit {i : Instr} {s t : State} (hc : Completed i s t) (he : exec i s = .next t)
    (hm : s.mode = .uninit) : i = .init ∧ t.fb = Memory.zero ∧ t.lines = ⟨.high, .low, .high, .low⟩ := by
  obtain rfl := hc.ready.mpr hm
  obtain ⟨u, hu, -, hfb, hlines⟩ := exec_init_completed hm
  obtain rfl : u = t := Host.Outcome.next.inj (hu.symm.trans he)
  exact ⟨rfl, hfb, hlines⟩

/-- Only INIT sends anything before its link bytes (R77). -/
theorem leadEvents_of_ne_init {i : Instr} (h : i ≠ .init) : leadEvents i = [] := by
  cases i with
  | init => exact absurd rfl h
  | _ => rfl

/-- Only SETPIX answers OUT_OF_BOUNDS (R18, R81). -/
theorem setpix_of_responseOf {i : Instr} (h : responseOf i = .outOfBounds) : ∃ x y on, i = .setpix x y on := by
  cases i with
  | setpix x y on => exact ⟨x, y, on, rfl⟩
  | _ => cases h

end Sys2Proof.Machine
end

section
/-!
SUPPORT. The invariant of the machine, one clause at a time: the rising edges of a request's events (R74), the lines after
link bytes (R72), and the framebuffer after INIT (R15, R78).
-/

namespace Sys2Proof.Machine

open Sys2Proof.Claims

/-! ## Rising edges -/

/-- INIT's reset pulse drives no clock (R75). -/
theorem risingEdgesFrom_leadEvents (clk : Level) (i : Instr) : risingEdgesFrom clk (leadEvents i) = 0 := by
  cases i <;> rfl

/-- A request's events keep the rising edges a multiple of eight (R74). -/
theorem framed_append_request {tr : List Event} (h : 8 ∣ risingEdges tr) (i : Instr) (bs : List (Byte × Bool)) :
    8 ∣ risingEdges (tr ++ (leadEvents i ++ linkEvents bs)) := by
  rw [← List.append_assoc]
  refine framed_append_bytes _ ?_ bs
  rwa [risingEdges, risingEdgesFrom_append, risingEdgesFrom_leadEvents]

/-! ## The lines between requests in READY -/

/-- The lines as every request leaves them in READY: RES and CLK high, DIN and DC driven (R72, R78). -/
def Lines.Idle (ls : Lines) : Prop := ls.res = .high ∧ ls.clk = .high ∧ ls.din ≠ .x ∧ ls.dc ≠ .x

theorem Lines.Idle.after_linkEvents {ls : Lines} (h : ls.Idle) (bs : List (Byte × Bool)) :
    ((linkEvents bs).foldl Lines.after ls).Idle := by
  induction bs generalizing ls with
  | nil => exact h
  | cons b bs ih =>
    rw [linkEvents, List.flatMap_cons, List.foldl_append, lines_after_sendByte]
    exact ih ⟨h.1, rfl, ofBit_ne_x _, ofBit_ne_x _⟩

/-! ## The invariant under a fault and under a completed request -/

theorem fbWritten_of_zero {s : State} (h : s.fb = Memory.zero) : s.FbWritten := by
  intro c p
  rw [State.fbCell, h, read_zero (fbaddr_lt c p)]
  exact Option.some_ne_none _

/-- A fault touches no field the invariant speaks of (R99). -/
theorem State.Inv.raiseFault {s : State} (h : s.Inv) (code : FaultCode) : (raiseFault code s).Inv :=
  ⟨h.fbWf, h.rpInStream, h.linesHold, h.framed, h.untouched, h.initialised⟩

/-- A completed request leaves every framebuffer byte written and the lines idle: INIT brings both about, every other
request keeps both (R15, R72, R78). -/
theorem completed_initialised {i : Instr} {s t : State} (h : s.Inv) (hc : Completed i s t) (he : exec i s = .next t) :
    t.FbWritten ∧ t.lines.Idle := by
  cases hm : s.mode with
  | uninit =>
    obtain ⟨-, hfb, hlines⟩ := init_of_completed_uninit hc he hm
    exact ⟨fbWritten_of_zero hfb, by rw [hlines]; simp [Lines.Idle]⟩
  | ready =>
    obtain ⟨hwritten, hidle⟩ := h.initialised hm
    have hi : i ≠ .init := fun e => by simp [hc.ready.mp e] at hm
    refine ⟨fun c p => hc.written c p (hwritten c p), ?_⟩
    rw [hc.lines, leadEvents_of_ne_init hi]
    exact Lines.Idle.after_linkEvents hidle _

theorem State.Inv.completed {i : Instr} {s t : State} (h : s.Inv) (hf : Fetches s i i.words) (hc : Completed i s t)
    (he : exec i s = .next t) : t.Inv where
  fbWf := hc.wf h.fbWf
  rpInStream := by rw [hc.rp, hc.stream]; exact (fetches_length hf).2
  linesHold := by rw [hc.lines, hc.trace, h.linesHold, ← List.foldl_append]
  framed := by rw [hc.trace]; exact framed_append_request h.framed i _
  untouched := fun hm => by simp [hc.mode] at hm
  initialised := fun _ => completed_initialised h hc he

/-- The invariant holds at power-up with any stream loaded (R24). -/
theorem inv_reset_load (ws : List Word) : (State.reset.load ws).Inv where
  fbWf := wf_reset
  rpInStream := Nat.zero_le _
  linesHold := rfl
  framed := Nat.dvd_zero 8
  untouched := fun _ => ⟨fun _ _ => rfl, rfl, rfl, rfl⟩
  initialised := fun hm => nomatch hm

/-- Every step keeps the invariant. -/
theorem State.Inv.step {s t : State} (h : s.Inv) (hs : step s = .next t) : t.Inv := by
  rcases step_completes_or_faults hs with ⟨i, hf, he, hc⟩ | ⟨code, -, rfl⟩
  · exact h.completed hf hc he
  · exact h.raiseFault code

/-- The hypotheses of `State.Inv.step` are met in READY too: after INIT, with a REFRESH to run. -/
theorem exists_inv_ready_step : ∃ s t : State, s.Inv ∧ s.mode = .ready ∧ step s = .next t := by
  have hstep := step_of_request (s := State.reset.load [0x10000000, 0x40000000]) (i := .init) rfl rfl
  obtain ⟨s, hs, hc, -⟩ := exec_init_completed (s := State.reset.load [0x10000000, 0x40000000]) rfl
  have hdecode : decode (s.stream.drop s.rp) = .request .refresh 1 := by
    rw [hc.stream, hc.rp]
    decide
  exact ⟨s, _, (inv_reset_load _).step (hstep.trans hs), hc.mode,
    (step_of_request hc.fault hdecode).trans (exec_refresh_ready hc.mode)⟩

/-! ## The level a line holds -/

/-- A line holds the level last driven on it, or the level it had (R16). -/
theorem level_after_events (ls : Lines) (es : List Event) (id : LineId) :
    (es.foldl Lines.after ls).level id = ((lastDrive id es).map Level.ofBit).getD (ls.level id) := by
  induction es generalizing ls with
  | nil => rfl
  | cons e es ih =>
    rw [List.foldl_cons, ih]
    cases e with
    | wait n => rfl
    | line j l =>
      rw [lastDrive]
      cases lastDrive id es with
      | some b => rfl
      | none =>
        by_cases hj : j = id
        · simp [hj, Lines.after]
        · simp [hj, Lines.after, drive_level_ne ls l (Ne.symm hj)]

/-! ## Steps from UNINIT -/

/-- What INIT sends does not depend on the framebuffer it finds (R77, R84). -/
theorem bytesSent_init_congr {s t : State} (h : s.params = t.params) : bytesSent s .init = bytesSent t .init := by
  rw [bytesSent, bytesSent, refreshSent_zeroFB h, h]

/-- The two states agree in all but the framebuffer, and in the framebuffer too when MODE is READY. -/
structure SameButUninitFb (t t' : State) : Prop where
  lines : t'.lines = t.lines
  trace : t'.trace = t.trace
  resp : t'.resp = t.resp
  rp : t'.rp = t.rp
  mode : t'.mode = t.mode
  fault : t'.fault = t.fault
  fb : t.mode = .ready → t'.fb = t.fb

/-- A fault raised in UNINIT shows nothing of the framebuffer (R99). -/
theorem raiseFault_sameButUninitFb {s : State} (hm : s.mode = .uninit) (code : FaultCode) (m : List Host.Cell) :
    SameButUninitFb (raiseFault code s) (raiseFault code { s with fb := m }) :=
  ⟨rfl, rfl, rfl, rfl, rfl, rfl, fun h => by simp [hm] at h⟩

/-- A request run in UNINIT shows nothing of the framebuffer: INIT overwrites it, any other request faults
(R77, R98). -/
theorem exec_sameButUninitFb {i : Instr} {s t : State} (hm : s.mode = .uninit) (he : exec i s = .next t)
    (m : List Host.Cell) : ∃ t', exec i { s with fb := m } = .next t' ∧ SameButUninitFb t t' := by
  by_cases hi : i = .init
  · subst hi
    obtain ⟨u, hu, hc, hfb, hlines⟩ := exec_init_completed hm
    obtain rfl : u = t := Host.Outcome.next.inj (hu.symm.trans he)
    obtain ⟨u', hu', hc', hfb', hlines'⟩ := exec_init_completed (s := { s with fb := m }) hm
    refine ⟨u', hu', hlines'.trans hlines.symm, ?_, hc'.resp.trans hc.resp.symm, hc'.rp.trans hc.rp.symm,
      hc'.mode.trans hc.mode.symm, hc'.fault.trans hc.fault.symm, fun _ => hfb'.trans hfb.symm⟩
    rw [hc'.trace, hc.trace, bytesSent_init_congr (s := { s with fb := m }) (t := s) rfl]
  · obtain rfl : raiseFault .notReady s = t := Host.Outcome.next.inj ((exec_uninit hi hm).symm.trans he)
    exact ⟨_, exec_uninit hi hm, raiseFault_sameButUninitFb hm .notReady m⟩

end Sys2Proof.Machine
end

section
/-!
PROOFS. The obligations of 10_state.md, each from what a step can do.
-/

namespace Sys2Proof.Machine

open Sys2Proof.Claims

/-- Settles O28: a step completes the request at RP or raises a fault, and either keeps every clause. -/
theorem stepKeepsInvariant : Obligations.StepKeepsInvariant :=
  fun _ _ h hs => h.step hs

/-- Settles O19: a completed request leaves READY, and the one that completes in UNINIT is INIT. -/
theorem modeIsSetOnceByInit : Obligations.ModeIsSetOnceByInit := by
  refine ⟨reset_mode, fun s hm => ?_, fun s t hs => ?_⟩
  · obtain ⟨t, ht, hc, -⟩ := exec_init_completed hm
    exact ⟨t, ht, hc.mode⟩
  · rcases step_completes_or_faults hs with ⟨i, hf, he, hc⟩ | ⟨code, -, rfl⟩
    · cases hm : s.mode with
      | ready => exact .inl hc.mode
      | uninit =>
        obtain ⟨rfl, -⟩ := init_of_completed_uninit hc he hm
        exact .inr ⟨rfl, hc.mode, _, hf⟩
    · exact .inl rfl

/-- Settles O20: a completed request keeps FAULT, and a block with FAULT set takes no step. -/
theorem faultIsWrittenOnce : Obligations.FaultIsWrittenOnce := by
  refine ⟨reset_fault, fun s t hs hne => ?_, fun s hf t hs => hf (fault_none_of_step hs)⟩
  rcases step_completes_or_faults hs with ⟨i, -, -, hc⟩ | ⟨code, -, rfl⟩
  · exact absurd hc.fault hne
  · rfl

/-- Settles O21: a completed request advances RP by its length, a fault leaves RP. -/
theorem requestPointerAdvancesByLength : Obligations.RequestPointerAdvancesByLength := by
  refine ⟨reset_rp, fun s t hs => ?_⟩
  rcases step_completes_or_faults hs with ⟨i, hf, -, hc⟩ | ⟨code, hne, rfl⟩
  · exact ⟨fun _ => ⟨i, hf, hc.rp⟩, fun h => absurd (hc.fault.trans hf.1) h⟩
  · exact ⟨fun h => absurd h hne, fun _ => rfl⟩

/-- Settles O22: the events a completed request appends to TRACE are the ones that drove its lines. -/
theorem linesHoldLastDrive : Obligations.LinesHoldLastDrive := by
  refine ⟨fun id => by cases id <;> rfl, fun s t hs => ?_⟩
  rcases step_completes_or_faults hs with ⟨i, -, -, hc⟩ | ⟨code, -, rfl⟩
  · refine ⟨_, hc.trace, fun id => ?_⟩
    rw [hc.lines, level_after_events]
    cases lastDrive id (leadEvents i ++ linkEvents (bytesSent s i)) with
    | none => rfl
    | some l => cases l <;> rfl
  · exact ⟨[], (List.append_nil _).symm, fun _ => rfl⟩

/-- Settles O23: a completed request appends its own response, a fault appends none. -/
theorem responsesAreAppended : Obligations.ResponsesAreAppended := by
  refine ⟨reset_resp, rfl, rfl, fun s t hs => ?_⟩
  rcases step_completes_or_faults hs with ⟨i, hf, -, hc⟩ | ⟨code, hne, rfl⟩
  · refine ⟨fun _ => ⟨responseOf i, hc.resp, fun hr => ?_⟩, fun h => absurd (hc.fault.trans hf.1) h⟩
    obtain ⟨x, y, on, rfl⟩ := setpix_of_responseOf hr
    exact ⟨x, y, on, _, hf⟩
  · exact ⟨fun h => absurd h hne, fun _ => rfl⟩

/-- Settles O29: fetch does not read the framebuffer, and no request run in UNINIT shows what it held. -/
theorem powerUpFramebufferIsUnobservable : Obligations.PowerUpFramebufferIsUnobservable := by
  intro s t m hm hs
  have hsame : ∃ t', step { s with fb := m } = .next t' ∧ SameButUninitFb t t' := by
    obtain ⟨hf, -, ⟨why, hd, rfl⟩ | ⟨i, n, hd, he⟩⟩ := step_cases hs
    · exact ⟨_, step_of_illegal hf hd, raiseFault_sameButUninitFb hm .illegal m⟩
    · obtain ⟨t', ht', h⟩ := exec_sameButUninitFb hm he m
      exact ⟨t', (step_of_request (s := { s with fb := m }) hf hd).trans ht', h⟩
  obtain ⟨t', ht', h⟩ := hsame
  exact ⟨t', ht', h.lines, h.trace, h.resp, h.rp, h.mode, h.fault, h.fb⟩

/-- Settles O1: the table is the fields of `State.reset`, and at RP = 0 fetch decodes the stream from its word 0. -/
theorem powerUpState : Obligations.PowerUpState :=
  ⟨reset_mode, reset_fault, reset_rp, fun _ _ => rfl, fun id => by cases id <;> rfl, reset_trace, reset_resp,
    fun _ _ _ h => fetch_of_fetches ⟨rfl, h⟩⟩

/-- Settles O27: every clause of the invariant at the power-up values. -/
theorem invariantAtPowerUp : Obligations.InvariantAtPowerUp := inv_reset_load

end Sys2Proof.Machine
end

section
/-!
SUPPORT. Decode looks at the request's own words only (R27): words may be put behind a request, and the words behind it
may be cut off, without decode finding another one.
-/

namespace Sys2Proof

/-- The string words of a TEXT are found in any list of words that begins with them (R46). -/
theorem stringWords_take_append {rest out : List Word} (h : stringWords rest = some out) (more : List Word) :
    stringWords (rest.take out.length ++ more) = some out := by
  obtain ⟨pre, last, post, rfl, rfl, hpre, hlast⟩ := (stringWords_eq_some_iff rest out).mp h
  rw [List.take_left]
  exact (stringWords_eq_some_iff _ _).mpr ⟨pre, last, more, rfl, rfl, hpre, hlast⟩

/-- Decode reads no word behind the request it finds (R27). -/
theorem decode_take_append {ws : List Word} {i : Instr} {n : Nat} (h : decode ws = .request i n) (more : List Word) :
    decode (ws.take n ++ more) = .request i n := by
  cases ws with
  | nil => cases h
  | cons w rest =>
    rcases decode_eq_request_iff.mp h with ⟨hop, hres, hi, rfl⟩ | ⟨hop, hres, hi, rfl⟩ | ⟨hop, hres, hi, rfl⟩ |
      ⟨hop, hres, hi, rfl⟩ | ⟨hop, hres, hi, rfl⟩ | ⟨hop, hres, hwf, hi, rfl⟩ |
      ⟨hop, w1, r, rfl, h25, h20, hwf, hi, rfl⟩ | ⟨hop, out, hout, h16, hpad, hwf, hi, rfl⟩
    · exact decode_eq_request_iff.mpr (.inl ⟨hop, hres, hi, rfl⟩)
    · exact decode_eq_request_iff.mpr (.inr (.inl ⟨hop, hres, hi, rfl⟩))
    · exact decode_eq_request_iff.mpr (.inr (.inr (.inl ⟨hop, hres, hi, rfl⟩)))
    · exact decode_eq_request_iff.mpr (.inr (.inr (.inr (.inl ⟨hop, hres, hi, rfl⟩))))
    · exact decode_eq_request_iff.mpr (.inr (.inr (.inr (.inr (.inl ⟨hop, hres, hi, rfl⟩)))))
    · exact decode_eq_request_iff.mpr (.inr (.inr (.inr (.inr (.inr (.inl ⟨hop, hres, hwf, hi, rfl⟩))))))
    · exact decode_eq_request_iff.mpr (.inr (.inr (.inr (.inr (.inr (.inr (.inl
        ⟨hop, w1, more, rfl, h25, h20, hwf, hi, rfl⟩)))))))
    · have htail := stringWords_take_append hout more
      rw [Nat.add_comm, List.take_succ_cons, List.cons_append]
      exact decode_eq_request_iff.mpr (.inr (.inr (.inr (.inr (.inr (.inr (.inr
        ⟨hop, out, htail, h16, hpad, hwf, hi, Nat.add_comm _ _⟩)))))))

/-- A request is decoded whatever words follow it in the stream (R27). -/
theorem decode_append {ws : List Word} {i : Instr} {n : Nat} (h : decode ws = .request i n) (more : List Word) :
    decode (ws ++ more) = .request i n := by
  have := decode_take_append h (ws.drop n ++ more)
  rwa [← List.append_assoc, List.take_append_drop] at this

end Sys2Proof

namespace Sys2Proof.Machine

/-- The words placed at an index of a stream stand there, whether or not the stream reaches that far. -/
theorem drop_placeAt (stream : List Word) (k : Nat) (ws : List Word) :
    (placeAt stream k ws).drop k = ws ++ stream.drop (k + ws.length) := by
  have hlen : (stream.take k ++ List.replicate (k - stream.length) 0).length = k := by simp; omega
  rw [placeAt, List.append_assoc]
  exact List.drop_left' hlen

/-- An instruction of the opcode table is what decode finds in its own bits. -/
theorem decode_tableWords {nbits w : Nat} {i : Instr} (h : decodeTableWord nbits w = some i) :
    ∃ n, decode (tableWords nbits w) = .request i n := by
  unfold decodeTableWord at h
  cases hd : decode (tableWords nbits w) with
  | request j n =>
    rw [hd] at h
    exact ⟨n, by rw [Option.some.inj h]⟩
  | illegal why => rw [hd] at h; cases h
  | incomplete => rw [hd] at h; cases h

end Sys2Proof.Machine
end

section
/-!
SUPPORT. Running a request reads no word of the stream (R27, R43): every operation commutes with `State.load`, which
replaces the stream.
-/

namespace Sys2Proof.Machine

/-! ## The stream of a result -/

/-- A result with the stream of its state replaced. -/
def Draw.load {α : Type} (d : Draw α) (ws : List Word) : Draw α :=
  match d with
  | .ok a s => .ok a (s.load ws)
  | .overflow s => .overflow (s.load ws)

/-- An outcome with the stream of its next state replaced. -/
def loadNext (ws : List Word) : StepOutcome → StepOutcome
  | .next s => .next (s.load ws)
  | .fault r => .fault r
  | .refused r => .refused r

@[simp] theorem emit_load (s : State) (es : List Event) (ws : List Word) :
    (s.load ws).emit es = (s.emit es).load ws := rfl

@[simp] theorem zeroFB_load (s : State) (ws : List Word) : zeroFB (s.load ws) = (zeroFB s).load ws := rfl

@[simp] theorem complete_load (s : State) (r : Response) (n : Nat) (ws : List Word) :
    (s.load ws).complete r n = (s.complete r n).load ws := rfl

@[simp] theorem writePixel_load (s : State) (x : Column) (y : Row) (on : Bool) (ws : List Word) :
    (s.load ws).writePixel x y on = (s.writePixel x y on).load ws := rfl

@[simp] theorem loadNext_next (s : State) (ws : List Word) : loadNext ws (.next s) = .next (s.load ws) := rfl

theorem bind_load {α β : Type} {d d' : Draw α} {f : α → State → Draw β} {ws : List Word} (hd : d' = d.load ws)
    (hf : ∀ a t, f a (t.load ws) = (f a t).load ws) : d'.bind f = (d.bind f).load ws := by
  subst hd
  cases d with
  | ok a t => exact hf a t
  | overflow t => rfl

theorem finish_load {α : Type} {d d' : Draw α} {ws : List Word} (hd : d' = d.load ws) (len : Nat) :
    d'.finish len = loadNext ws (d.finish len) := by
  subst hd
  cases d <;> rfl

theorem chk_load (v : Nat) (s : State) (ws : List Word) : chk v (s.load ws) = (chk v s).load ws := by
  unfold chk
  split <;> rfl

theorem whenReady_load {s : State} {ws : List Word} {body : State → StepOutcome}
    (h : body (s.load ws) = loadNext ws (body s)) : whenReady (s.load ws) body = loadNext ws (whenReady s body) := by
  unfold whenReady
  rw [load_mode]
  split
  · rfl
  · exact h

/-! ## The framebuffer operations -/

theorem setPixelCore_load (x y : Nat) (on : Bool) (s : State) (ws : List Word) :
    setPixelCore x y on (s.load ws) = (setPixelCore x y on s).load ws := by
  by_cases h : x ≤ 127 ∧ y ≤ 63
  · rw [setPixelCore_of_in h.1 h.2, setPixelCore_of_in h.1 h.2, writePixel_load]
  · rw [setPixelCore_of_out h, setPixelCore_of_out h]

theorem refreshCore_load (s : State) (ws : List Word) : refreshCore (s.load ws) = (refreshCore s).load ws := by
  have h : refreshEvents (s.load ws) = refreshEvents s := refreshEvents_congr rfl fun _ _ => rfl
  rw [refreshCore, refreshCore, h, emit_load]

theorem layoutClear_load (s : State) (ws : List Word) : layoutClear (s.load ws) = (layoutClear s).load ws := by
  unfold layoutClear
  rw [load_params, zeroFB_load, refreshCore_load]
  split <;> rfl

/-! ## The composite operations -/

theorem glyphBits_load (brk : Bool) (h y0 : Nat) (normal : Bool) (k : Nat) (tmp : Byte) (cur : Cursor) (s : State)
    (ws : List Word) :
    glyphBits brk h y0 normal k tmp cur (s.load ws) = (glyphBits brk h y0 normal k tmp cur s).load ws := by
  induction k generalizing tmp cur s with
  | zero => rfl
  | succ k ih =>
    simp only [glyphBits, setPixelCore_load]
    refine bind_load (chk_load _ _ ws) fun y t => ?_
    split
    · refine bind_load (chk_load _ _ ws) fun x t => ?_
      split
      · rfl
      · exact ih _ _ _
    · exact ih _ _ _

theorem glyphBytes_load (brk : Bool) (font : Font) (ch : Byte) (y0 : Nat) (normal : Bool) (n t : Nat) (cur : Cursor)
    (s : State) (ws : List Word) :
    glyphBytes brk font ch y0 normal n t cur (s.load ws) = (glyphBytes brk font ch y0 normal n t cur s).load ws := by
  induction n generalizing t cur s with
  | zero => rfl
  | succ n ih => exact bind_load (glyphBits_load _ _ _ _ _ _ _ s ws) fun _ _ => ih _ _ _

theorem drawGlyphCore_load (x0 y0 : Nat) (ch : Byte) (font : Font) (normal : Bool) (s : State) (ws : List Word) :
    drawGlyphCore x0 y0 ch font normal (s.load ws) = (drawGlyphCore x0 y0 ch font normal s).load ws :=
  glyphBytes_load _ _ _ _ _ _ _ _ s ws

theorem numberDigits_load (x0 y0 v n : Nat) (font : Font) (k t : Nat) (s : State) (ws : List Word) :
    numberDigits x0 y0 v n font k t (s.load ws) = (numberDigits x0 y0 v n font k t s).load ws := by
  induction k generalizing t s with
  | zero => rfl
  | succ k ih =>
    exact bind_load (chk_load _ s ws) fun _ _ => bind_load (drawGlyphCore_load _ _ _ _ _ _ ws) fun _ _ => ih _ _

theorem textWrap_load (cur : Cursor) (s : State) (ws : List Word) :
    textWrap cur (s.load ws) = (textWrap cur s).load ws := by
  unfold textWrap
  split
  · exact bind_load (chk_load _ s ws) fun _ _ => rfl
  · rfl

theorem textClear_load (cur : Cursor) (s : State) (ws : List Word) :
    textClear cur (s.load ws) = (textClear cur s).load ws := by
  unfold textClear
  rw [layoutClear_load]
  split <;> rfl

theorem textCore_load (chars : List Byte) (cur : Cursor) (s : State) (ws : List Word) :
    textCore chars cur (s.load ws) = (textCore chars cur s).load ws := by
  induction chars generalizing cur s with
  | nil => rfl
  | cons ch rest ih =>
    exact bind_load (textWrap_load cur s ws) fun _ _ => bind_load (textClear_load _ _ ws) fun _ _ =>
      bind_load (drawGlyphCore_load _ _ _ _ _ _ ws) fun _ _ => bind_load (chk_load _ _ ws) fun _ _ => ih _ _

/-! ## The requests -/

/-- Setting MODE does not touch the stream. -/
theorem setMode_load (s : State) (m : Mode) (ws : List Word) :
    { s.load ws with mode := m } = State.load { s with mode := m } ws := rfl

theorem sendInitSeq_load (s : State) (ws : List Word) : sendInitSeq (s.load ws) = (sendInitSeq s).load ws := by
  rw [sendInitSeq, sendInitSeq, load_params, emit_load]

theorem execInit_load (s : State) (ws : List Word) : execInit (s.load ws) = loadNext ws (execInit s) := by
  unfold execInit
  rw [load_mode]
  split
  · rfl
  · simp only [resetPulse, emit_load, sendInitSeq_load, zeroFB_load, refreshCore_load]
    rw [setMode_load, complete_load, loadNext_next]

/-- No request reads the stream: replacing it first or last is the same (R27). -/
theorem exec_load (i : Instr) (s : State) (ws : List Word) : exec i (s.load ws) = loadNext ws (exec i s) := by
  cases i with
  | init => exact execInit_load s ws
  | send c v =>
    refine whenReady_load (body := fun s => .next ((sendByte v c s).complete .ok 1)) ?_
    rw [sendByte, sendByte, emit_load, complete_load, loadNext_next]
  | setpix x y on =>
    refine whenReady_load (body := fun s =>
      .next ((setPixelCore x.toNat y.toNat on s).complete (pixelResponse x.toNat y.toNat) 1)) ?_
    rw [setPixelCore_load, complete_load, loadNext_next]
  | refresh =>
    refine whenReady_load (body := fun s => .next ((refreshCore s).complete .ok 1)) ?_
    rw [refreshCore_load, complete_load, loadNext_next]
  | clear =>
    refine whenReady_load (body := fun s => .next ((refreshCore (zeroFB s)).complete .ok 1)) ?_
    rw [zeroFB_load, refreshCore_load, complete_load, loadNext_next]
  | glyph x y ch font normal =>
    exact whenReady_load (body := fun s => (drawGlyphCore x.toNat y.toNat ch font normal s).finish 1)
      (finish_load (drawGlyphCore_load _ _ _ _ _ s ws) 1)
  | number x y n font v =>
    exact whenReady_load (body := fun s => (numberDigits x.toNat y.toNat v.toNat n.toNat font n.toNat 0 s).finish 2)
      (finish_load (numberDigits_load _ _ _ _ _ _ _ s ws) 2)
  | text x y chars =>
    exact whenReady_load (body := fun s => (textCore chars ⟨x.toNat, y.toNat⟩ s).finish (1 + textWords chars))
      (finish_load (textCore_load chars _ s ws) _)

end Sys2Proof.Machine
end

section
/-!
SUPPORT. What the drawing requests send and store (R35, R40): a TEXT as its layout plan tells it, and a pixel written
twice.
-/

namespace Sys2Proof.Machine

open Sys2Proof.Claims

/-- A request has one next state. -/
theorem next_unique {o : StepOutcome} {s t : State} (ht : o = .next t) (hs : o = .next s) : t = s :=
  Host.Outcome.next.inj (ht.symm.trans hs)

/-! ## The layout of a text -/

theorem textPlan_cons (ch : Byte) (rest : List Byte) (x y : Nat) :
    textPlan (ch :: rest) x y =
      if 58 < (if 122 < x then y + 16 else y) then ⟨0, 0, ch, true⟩ :: textPlan rest 8 0
      else
        ⟨if 122 < x then 0 else x, if 122 < x then y + 16 else y, ch, false⟩ ::
          textPlan rest ((if 122 < x then 0 else x) + 8) (if 122 < x then y + 16 else y) := rfl

/-- The machine's count of layout clears is the plan's (R92). -/
theorem textClears_eq_layoutClears (chars : List Byte) (x y : Nat) : textClears chars x y = layoutClears chars x y := by
  induction chars generalizing x y with
  | nil => rfl
  | cons ch rest ih =>
    rw [textClears, layoutClears, textPlan_cons, ih, ih]
    by_cases hy : 58 < (if 122 < x then y + 16 else y)
    · rw [if_pos hy, if_pos hy, List.countP_cons_of_pos rfl, layoutClears]
    · rw [if_neg hy, if_neg hy, List.countP_cons_of_neg Bool.false_ne_true, layoutClears]

theorem clearBytes_of_no_push {s : State} (h : s.params.textClearPush = false) (n : Nat) : clearBytes s n = [] := by
  simp [clearBytes, h]

theorem clearBytes_zero (s : State) : clearBytes s 0 = [] := by simp [clearBytes]

/-- A text whose layout does not clear leaves alone a byte that holds no pixel of its characters' cells, whether it
completes or overflows (R35, R92). -/
theorem textCore_fbCell (c : Column) (p : Page) (chars : List Byte) (x y : Nat) (s : State)
    (hclear : layoutClears chars x y = 0)
    (hcells : ∀ m ∈ textPlan chars x y, ∀ (X : Column) (Y : Row), InCell m.x m.y .px12 X Y →
      ¬((pixelMap X Y).column = c ∧ (pixelMap X Y).page = p)) :
    (textCore chars ⟨x, y⟩ s).state.fbCell c p = s.fbCell c p := by
  induction chars generalizing x y s with
  | nil => rfl
  | cons ch rest ih =>
    by_cases hover : 122 < x ∧ 255 < y + 16
    · rw [textCore_cons_overflow ch rest hover.1 hover.2]
      rfl
    · rw [textCore_cons ch rest x y (by omega)]
      rw [layoutClears, textPlan_cons] at hclear
      rw [textPlan_cons] at hcells
      by_cases hy : 58 < (if 122 < x then y + 16 else y)
      · simp [hy] at hclear
      · rw [if_neg hy] at hclear hcells ⊢
        obtain ⟨hfirst, hrest⟩ := List.forall_mem_cons.mp hcells
        rw [List.countP_cons_of_neg (by simp)] at hclear
        rw [ih _ _ _ hclear hrest, glyphDrawn_fbCell _ _ _ _ _ _ _ _ hfirst]

/-- The end of a composite request stores nothing (R89, R99). -/
theorem finish_fbCell {α : Type} {d : Draw α} {len : Nat} {t : State} (h : d.finish len = .next t) (c : Column)
    (p : Page) : t.fbCell c p = d.state.fbCell c p := by
  cases d <;> cases h <;> rfl

/-! ## Requests that send nothing -/

/-- A drawing request sends nothing, but for a TEXT that clears and pushes (R40). -/
theorem sends_nothing {s : State} {i : Instr}
    (h : (∃ x y on, i = .setpix x y on) ∨
      (Composite i ∧ ∀ x y chars, i = .text x y chars → s.params.textClearPush = true →
        layoutClears chars x.toNat y.toNat = 0)) : leadEvents i = [] ∧ bytesSent s i = [] := by
  obtain ⟨x, y, on, rfl⟩ | ⟨hcomp, htext⟩ := h
  · exact ⟨rfl, rfl⟩
  · cases i with
    | glyph x y ch font normal => exact ⟨rfl, rfl⟩
    | number x y n font v => exact ⟨rfl, rfl⟩
    | text x y chars =>
      refine ⟨rfl, ?_⟩
      rw [bytesSent, textClears_eq_layoutClears]
      cases hpush : s.params.textClearPush with
      | false => exact clearBytes_of_no_push hpush _
      | true => rw [htext x y chars rfl hpush, clearBytes_zero]
    | _ => exact hcomp.elim

/-! ## The same request twice -/

/-- A pixel written again to the same value stores the byte it stored (R36, R80). -/
theorem pixelByte_writePixel (s : State) (x : Column) (y : Row) (on : Bool) :
    pixelByte (s.writePixel x y on) x y on = pixelByte s x y on := by
  have hbyte : (s.writePixel x y on).fbByte x (pixelMap x y).page = pixelByte s x y on := by
    rw [writePixel_eq, setFbByte_fbByte, if_pos ⟨rfl, rfl⟩]
  rw [pixelByte, hbyte]
  cases on with
  | false => exact (BitVec.and_assoc _ _ _).trans (congrArg _ BitVec.and_self)
  | true => exact (BitVec.or_assoc _ _ _).trans (congrArg _ BitVec.or_self)

/-- SetPixelCore twice leaves every byte as once (R36). -/
theorem setPixelCore_twice_fbCell (x y : Nat) (on : Bool) (s : State) (c : Column) (p : Page) :
    (setPixelCore x y on (setPixelCore x y on s)).fbCell c p = (setPixelCore x y on s).fbCell c p := by
  by_cases h : x ≤ 127 ∧ y ≤ 63
  · rw [setPixelCore_of_in h.1 h.2, setPixelCore_of_in h.1 h.2, writePixel_eq (s.writePixel _ _ on),
      pixelByte_writePixel, setFbByte_fbCell, writePixel_eq, setFbByte_fbCell]
    split <;> rfl
  · rw [setPixelCore_of_out h, setPixelCore_of_out h]

/-- The bytes SetPixelCore stores depend on the framebuffer alone. -/
theorem setPixelCore_complete_fbCell (x y : Nat) (on : Bool) (s : State) (r : Response) (n : Nat) (c : Column)
    (p : Page) : (setPixelCore x y on (s.complete r n)).fbCell c p = (setPixelCore x y on s).fbCell c p := by
  by_cases h : x ≤ 127 ∧ y ≤ 63
  · rw [setPixelCore_of_in h.1 h.2, setPixelCore_of_in h.1 h.2]
    rfl
  · rw [setPixelCore_of_out h, setPixelCore_of_out h]
    rfl

end Sys2Proof.Machine
end

section
/-!
PROOFS. The obligations of 20_memory.md, from what decode reads, what a request or a step can do, and what a drawing
request stores.
-/

namespace Sys2Proof.Machine

open Sys2Proof.Claims

/-- Settles O9: decode stops at the request's last word, and every operation of a request commutes with a change of the
stream. -/
theorem decodeReadsOnlyItsWords : Obligations.DecodeReadsOnlyItsWords := by
  refine ⟨fun ws i n h => ⟨(decode_length h).2, decode_take_append h⟩, fun s t i ws he => ?_⟩
  have hload := exec_load i s ws
  rw [he] at hload
  exact hload

/-- Settles O24: neither a completed request nor a fault writes the stream or the parameters. -/
theorem inputsNeverChange : Obligations.InputsNeverChange := by
  intro s t hs
  rcases step_completes_or_faults hs with ⟨i, -, -, hc⟩ | ⟨code, -, rfl⟩
  · exact ⟨hc.stream, hc.params⟩
  · exact ⟨rfl, rfl⟩

/-- Settles O26: a completed drawing request sends no byte, and a fault drives nothing. -/
theorem drawingDrivesNoLine : Obligations.DrawingDrivesNoLine := by
  intro s t i n hf hs hdraw
  obtain ⟨u, hu, hc⟩ := exec_cases i s
  obtain rfl := next_unique hu ((step_of_request hf.1 hf.2).symm.trans hs)
  rcases hc with hc | ⟨code, -, rfl⟩
  · obtain ⟨hlead, hbytes⟩ := sends_nothing hdraw
    rw [hc.trace, hc.lines, hlead, hbytes]
    exact ⟨List.append_nil _, rfl⟩
  · exact ⟨rfl, rfl⟩

/-- Settles O37: the page and the bit of a row by the mapper's arithmetic, and a pixel as that bit of its byte. -/
theorem pixelLanes : Obligations.PixelLanes := by
  refine ⟨fun x y => ⟨fun h => Fin.ext ?_, fun h => Fin.ext ?_⟩, pixelAt_eq_bit, fun s c p j y hy => ?_⟩
  · rw [pixelMap_page_val, Nat.div_eq_of_lt (by omega)]
    rfl
  · rw [pixelMap_page_val]
    change 7 - y.val / 8 = 0
    omega
  · have hpage : (pixelMap c y).page = p := Fin.ext (by rw [pixelMap_page_val]; omega)
    have hbit : rowBit y = j.val := by rw [rowBit]; omega
    rw [pixelAt_eq_bit, hpage, hbit]

/-- Settles O43: a pixel written twice, a frame sent twice, a framebuffer zeroed twice. -/
theorem repeatedRequests : Obligations.RepeatedRequests := by
  refine ⟨fun s t u x y on hm ht hu c p => ?_, fun s t u hm ht hu => ?_, fun s t u hm ht hu => ?_⟩
  · have ht := next_unique ht (exec_setpix_ready hm x y on)
    have htm : t.mode = .ready := by rw [ht, complete_mode, (setPixelCore_onlyFb _ _ _ s).mode, hm]
    have hu := next_unique hu (exec_setpix_ready htm x y on)
    rw [hu, ht, complete_fbCell, complete_fbCell, setPixelCore_complete_fbCell, setPixelCore_twice_fbCell]
  · have ht := next_unique ht (exec_refresh_ready hm)
    have htm : t.mode = .ready := by rw [ht, complete_mode, refreshCore_mode, hm]
    have hu := next_unique hu (exec_refresh_ready htm)
    have hevents : refreshEvents t = refreshEvents s :=
      refreshEvents_congr (by rw [ht, complete_params, refreshCore_params])
        fun c p => by rw [ht, complete_fbByte, refreshCore_fbByte]
    refine ⟨by rw [hu, complete_fb, refreshCore_fb, ht, complete_fb, refreshCore_fb], refreshEvents s, ?_, ?_⟩
    · rw [ht, complete_trace, refreshCore_trace]
    · rw [hu, complete_trace, refreshCore_trace, hevents]
  · have ht := next_unique ht (exec_clear_ready hm)
    have htm : t.mode = .ready := by rw [ht, complete_mode, refreshCore_mode, zeroFB_mode, hm]
    have hu := next_unique hu (exec_clear_ready htm)
    rw [hu, ht, complete_fb, refreshCore_fb, zeroFB_fb, complete_fb, refreshCore_fb, zeroFB_fb]

/-- Settles O51: no request un-writes a byte, and without a layout clear a TEXT stores only where its glyphs do. -/
theorem textStoresOnlyInCells : Obligations.TextStoresOnlyInCells := by
  intro s t x y chars hm ht
  constructor
  · obtain ⟨u, hu, hc⟩ := exec_cases (.text x y chars) s
    obtain rfl := next_unique hu ht
    rcases hc with hc | ⟨code, -, rfl⟩
    · exact hc.written
    · exact fun _ _ => id
  · intro hclear c p hcells
    rw [exec_text_ready hm] at ht
    rw [finish_fbCell ht, textCore_fbCell c p chars _ _ s hclear hcells]

/-- Settles O11: decode finds the request only inside the stream, so fetch answers it. -/
theorem stepRunsDecodedRequest : Obligations.StepRunsDecodedRequest :=
  fun _ _ _ h => step_of_request h.1 h.2

/-- Settles O12: the placed words stand at RP, and the words behind them do not change what they decode to. -/
theorem placedWordRunsNext : Obligations.PlacedWordRunsNext := by
  intro s nbits w i h
  obtain ⟨n, hd⟩ := decode_tableWords h
  refine step_of_request (n := n) rfl ?_
  rw [State.withFetchWord, placeAtRp_stream, placeAtRp_rp, drop_placeAt]
  exact decode_append hd _

/-- Settles O36: the mask's bits one by one. -/
theorem pixelMapRule : Obligations.PixelMapRule := by
  refine fun x y => ⟨pixelMap_column x y, pixelMap_page_val x y, fun j hj => ?_⟩
  rw [mask_getLsbD x y j hj, decide_eq_true_iff, rowBit]

end Sys2Proof.Machine
end

section
/-!
SUPPORT. Decode by the OP of the first word (R45), and the encoding as the only words that decode to a request: a first
word from its fields (R47 to R54), and a text's string words from its characters (R55).
-/

namespace Sys2Proof

/-! ## Decode by OP -/

/-- The OP of the first word chooses the format (R45). -/
theorem decode_of_op {w : Word} {op : BitVec 4} (h : opField w = op) (rest : List Word) :
    decode (w :: rest) = decodeOp op.toNat w rest := by rw [decode_cons, h]

/-- A well-formed request decodes from its own words (R45, R46). -/
theorem decode_encode {i : Instr} (h : i.wellFormed = true) (rest : List Word) :
    decode (encode i ++ rest) = .request i i.words := by
  cases i with
  | init =>
    exact (decode_of_op (encodeZ_op _) rest).trans (decodeZ_eq_request_iff.mpr ⟨encodeZ_field_0 _, rfl, rfl⟩)
  | send c v =>
    refine (decode_of_op (encodeS_op c v) rest).trans (decodeS_eq_request_iff.mpr ⟨encodeS_field_9 c v, ?_, rfl⟩)
    rw [encodeS_bit_8, encodeS_field_0]
  | setpix x y on =>
    refine (decode_of_op (encodeP_op x y on) rest).trans (decodeP_eq_request_iff.mpr ⟨encodeP_field_17 x y on, ?_, rfl⟩)
    rw [encodeP_field_0, encodeP_field_8, encodeP_bit_16]
  | refresh =>
    exact (decode_of_op (encodeZ_op _) rest).trans (decodeZ_eq_request_iff.mpr ⟨encodeZ_field_0 _, rfl, rfl⟩)
  | clear =>
    exact (decode_of_op (encodeZ_op _) rest).trans (decodeZ_eq_request_iff.mpr ⟨encodeZ_field_0 _, rfl, rfl⟩)
  | glyph x y ch font normal =>
    have hg : glyphOf (encodeG x y ch font normal) = .glyph x y ch font normal := by
      rw [glyphOf, encodeG_field_0, encodeG_field_8, encodeG_field_16, encodeG_bit_24, encodeG_bit_25,
        fontOfBit_fontBit]
    exact (decode_of_op (encodeG_op x y ch font normal) rest).trans
      (decodeG_eq_request_iff.mpr ⟨encodeG_field_26 x y ch font normal, hg.symm ▸ h, hg.symm, rfl⟩)
  | number x y n font v =>
    have hn : numberOf (encodeN x y n font) v = .number x y n font v := by
      rw [numberOf, encodeN_field_0, encodeN_field_8, encodeN_field_16, encodeN_bit_24, fontOfBit_fontBit]
    exact (decode_of_op (encodeN_op x y n font) (v :: rest)).trans
      (decodeN_eq_request_iff.mpr
        ⟨encodeN_field_25 x y n font, encodeN_field_20 x y n font, hn.symm ▸ h, hn.symm, rfl⟩)
  | text x y chars =>
    have h0 : (0 : Byte) ∉ chars := fun hm => isPrintable_ne_zero (List.all_eq_true.mp h 0 hm) rfl
    rw [decode_encode_text x y chars h0]
    exact checked_eq_request_iff.mpr ⟨h, rfl, rfl⟩

/-! ## A first word from its fields -/

theorem encodeZ_of_fields {w : Word} {op : BitVec 4} (hop : opField w = op) (h : field w 0 28 = 0#28) :
    encodeZ op = w := by
  rw [encodeZ, ← hop, ← h, opField, field, field, extract_append_extract w 0 28 4]
  exact extract_all w

theorem encodeS_of_fields {w : Word} (hop : opField w = 0x2#4) (h : field w 9 19 = 0#19) :
    encodeS (w.getLsbD 8) (field w 0 8) = w := by
  rw [encodeS, ← hop, ← h, ofBool_getLsbD_eq_extract, opField, field, field, field, extract_append_extract w 9 19 4,
    extract_append_extract w 8 1 23, extract_append_extract w 0 8 24]
  exact extract_all w

theorem encodeP_of_fields {w : Word} (hop : opField w = 0x3#4) (h : field w 17 11 = 0#11) :
    encodeP (field w 0 8) (field w 8 8) (w.getLsbD 16) = w := by
  rw [encodeP, ← hop, ← h, ofBool_getLsbD_eq_extract]
  simp only [opField, field]
  rw [extract_append_extract w 17 11 4, extract_append_extract w 16 1 15, extract_append_extract w 8 8 16,
    extract_append_extract w 0 8 24]
  exact extract_all w

theorem encodeG_of_fields {w : Word} (hop : opField w = 0x6#4) (h : field w 26 2 = 0#2) :
    encode (glyphOf w) = [w] := by
  rw [glyphOf, encode, encodeG, fontBit_fontOfBit, ← hop, ← h, ofBool_getLsbD_eq_extract, ofBool_getLsbD_eq_extract]
  simp only [opField, field]
  rw [extract_append_extract w 26 2 4, extract_append_extract w 25 1 6, extract_append_extract w 24 1 7,
    extract_append_extract w 16 8 8, extract_append_extract w 8 8 16, extract_append_extract w 0 8 24]
  exact congrArg (fun v => [v]) (extract_all w)

theorem encodeN_of_fields {w : Word} (hop : opField w = 0x7#4) (h25 : field w 25 3 = 0#3) (h20 : field w 20 4 = 0#4)
    (w1 : Word) : encode (numberOf w w1) = [w, w1] := by
  rw [numberOf, encode, encodeN, fontBit_fontOfBit, ← hop, ← h25, ← h20, ofBool_getLsbD_eq_extract]
  simp only [opField, field]
  rw [extract_append_extract w 25 3 4, extract_append_extract w 24 1 7, extract_append_extract w 20 4 8,
    extract_append_extract w 16 4 12, extract_append_extract w 8 8 16, extract_append_extract w 0 8 24]
  exact congrArg (fun v => [v, w1]) (extract_all w)

theorem encodeT_of_fields {w : Word} (hop : opField w = 0x8#4) (h : field w 16 12 = 0#12) :
    encodeT (field w 0 8) (field w 8 8) = w := by
  rw [encodeT, ← hop, ← h]
  simp only [opField, field]
  rw [extract_append_extract w 16 12 4, extract_append_extract w 8 8 16, extract_append_extract w 0 8 24]
  exact extract_all w

/-! ## The string words of a text from its characters -/

/-- Four string bytes with a terminator and zeros behind it are the packed word of the bytes before it
(R55.2, R55.3). -/
theorem packString_last {a b c d : Byte} (h0 : 0 ∈ [a, b, c, d])
    (hpad : ([a, b, c, d].dropWhile (· ≠ 0)).any (· ≠ 0) = false) :
    packString ([a, b, c, d].takeWhile (· ≠ 0)) = [packWord a b c d] := by
  by_cases ha : a = 0#8
  · simp_all [packString]
  by_cases hb : b = 0#8
  · simp_all [packString]
  by_cases hc : c = 0#8
  · simp_all [packString]
  · have hd : d = 0#8 := by simpa [eq_comm (a := 0#8), ha, hb, hc] using h0
    simp [ha, hb, hc, hd, packString]

/-- String words that end at the first terminator, with zeros behind it, are the packed words of the characters before
it (R55). -/
theorem packString_takeWhile {pre : List Word} {last : Word} (hpre : ∀ v ∈ pre, ∀ b ∈ wordBytes v, b ≠ 0)
    (hlast : (0 : Byte) ∈ wordBytes last)
    (hpad : (((pre ++ [last]).flatMap wordBytes).dropWhile (· ≠ 0)).any (· ≠ 0) = false) :
    packString (((pre ++ [last]).flatMap wordBytes).takeWhile (· ≠ 0)) = pre ++ [last] := by
  induction pre with
  | nil =>
    rw [List.nil_append, List.flatMap_singleton] at hpad ⊢
    exact (packString_last hlast hpad).trans (by rw [packWord_wordBytes])
  | cons v pre ih =>
    obtain ⟨hv, hrest⟩ := List.forall_mem_cons.mp hpre
    have hv' : ∀ b ∈ wordBytes v, decide (b ≠ 0) = true := by simpa using hv
    rw [List.cons_append, List.flatMap_cons] at hpad ⊢
    rw [List.dropWhile_append_of_pos hv'] at hpad
    rw [List.takeWhile_append_of_pos hv']
    exact congrArg₂ List.cons (packWord_wordBytes v) (ih hrest hpad)

/-- The words a request was decoded from are its own encoding (R45, R55, R58). -/
theorem encode_of_decode {ws : List Word} {i : Instr} {n : Nat} (h : decode ws = .request i n) :
    ws.take n = encode i := by
  cases ws with
  | nil => cases h
  | cons w rest =>
    rcases decode_eq_request_iff.mp h with ⟨hop, hres, rfl, rfl⟩ | ⟨hop, hres, rfl, rfl⟩ | ⟨hop, hres, rfl, rfl⟩ |
      ⟨hop, hres, rfl, rfl⟩ | ⟨hop, hres, rfl, rfl⟩ | ⟨hop, hres, -, rfl, rfl⟩ |
      ⟨hop, w1, r, rfl, h25, h20, -, rfl, rfl⟩ | ⟨hop, out, hout, h16, hpad, -, rfl, rfl⟩
    · exact congrArg (fun v => [v]) (encodeZ_of_fields (BitVec.eq_of_toNat_eq hop) hres).symm
    · exact congrArg (fun v => [v]) (encodeS_of_fields (BitVec.eq_of_toNat_eq hop) hres).symm
    · exact congrArg (fun v => [v]) (encodeP_of_fields (BitVec.eq_of_toNat_eq hop) hres).symm
    · exact congrArg (fun v => [v]) (encodeZ_of_fields (BitVec.eq_of_toNat_eq hop) hres).symm
    · exact congrArg (fun v => [v]) (encodeZ_of_fields (BitVec.eq_of_toNat_eq hop) hres).symm
    · exact (encodeG_of_fields (BitVec.eq_of_toNat_eq hop) hres).symm
    · exact (encodeN_of_fields (BitVec.eq_of_toNat_eq hop) h25 h20 w1).symm
    · obtain ⟨pre, last, post, rfl, rfl, hpre, hlast⟩ := (stringWords_eq_some_iff rest out).mp hout
      rw [textOf, encode, encodeT_of_fields (BitVec.eq_of_toNat_eq hop) h16, packString_takeWhile hpre hlast hpad,
        Nat.add_comm, List.take_succ_cons, List.take_left]

/-- Only well-formed requests are decoded (R59). -/
theorem wellFormed_of_decode {ws : List Word} {i : Instr} {n : Nat} (h : decode ws = .request i n) :
    i.wellFormed = true := by
  cases ws with
  | nil => cases h
  | cons w rest =>
    rcases decode_eq_request_iff.mp h with ⟨-, -, rfl, -⟩ | ⟨-, -, rfl, -⟩ | ⟨-, -, rfl, -⟩ | ⟨-, -, rfl, -⟩ |
      ⟨-, -, rfl, -⟩ | ⟨-, -, hwf, rfl, -⟩ | ⟨-, w1, r, -, -, -, hwf, rfl, -⟩ | ⟨-, out, -, -, -, hwf, rfl, -⟩
    iterate 5 rfl
    iterate 3 exact hwf

end Sys2Proof
end

section
/-!
SUPPORT. What decode refuses (R57 to R59) and where it runs out of words (R61).
-/

namespace Sys2Proof

open Sys2Proof.Claims

/-! ## Incomplete requests -/

/-- Decode runs out of words at the requests R61 names, and at no other. -/
theorem decode_incomplete_iff {w : Word} {rest : List Word} :
    decode (w :: rest) = .incomplete ↔ Incomplete (w :: rest) := by
  have h7 : (opField w).toNat = 7 ↔ w.extractLsb' 28 4 = 0x7#4 := BitVec.toNat_inj (y := 0x7#4)
  have h8 : (opField w).toNat = 8 ↔ w.extractLsb' 28 4 = 0x8#4 := BitVec.toNat_inj (y := 0x8#4)
  rw [decode_eq_incomplete_iff, stringWords_eq_none_iff, h7, h8]
  constructor
  · exact fun h => ⟨w, rest, rfl, h⟩
  · rintro ⟨w, rest, ⟨⟩, h⟩
    exact h

/-- A complete request that decode does not answer is illegal (R60). -/
theorem isIllegal_of_no_request {w : Word} {rest : List Word} (hc : ¬Incomplete (w :: rest))
    (hr : ∀ i n, decode (w :: rest) ≠ .request i n) : IsIllegal (decode (w :: rest)) := by
  cases hd : decode (w :: rest) with
  | request i n => exact absurd hd (hr i n)
  | illegal why => exact ⟨why, rfl⟩
  | incomplete => exact absurd (decode_incomplete_iff.mp hd) hc

/-- Only NUMBER and TEXT can be incomplete (R61). -/
theorem complete_of_op {w : Word} {rest : List Word} (h7 : w.extractLsb' 28 4 ≠ 0x7#4)
    (h8 : w.extractLsb' 28 4 ≠ 0x8#4) : ¬Incomplete (w :: rest) := by
  rintro ⟨w, rest, ⟨⟩, ⟨h, -⟩ | ⟨h, -⟩⟩
  · exact h7 h
  · exact h8 h

/-! ## Reserved operations (R57) -/

/-- R57's list is every OP that no row of the opcode table has (R45). -/
theorem op_of_mem_reserved (op : BitVec 4) (h : op ∈ [0x0#4, 0x9#4, 0xA#4, 0xB#4, 0xC#4, 0xD#4, 0xE#4, 0xF#4]) :
    op.toNat = 0 ∨ 9 ≤ op.toNat := by
  revert op
  decide

theorem decodeOp_reserved {op : Nat} (h : op = 0 ∨ 9 ≤ op) (w : Word) (rest : List Word) :
    decodeOp op w rest = .illegal .reservedOp := by
  unfold decodeOp
  split
  iterate 8 omega
  rfl

/-! ## Reserved bits (R58) -/

/-- The word whose bits `lo` to `lo + len - 1` are 1 and whose other bits are 0. -/
def fieldMask (lo len : Nat) : Word := (BitVec.allOnes len).setWidth 32 <<< lo

theorem and_fieldMask {w : Word} {lo len : Nat} (h : field w lo len = 0) : w &&& fieldMask lo len = 0 := by
  ext i hi
  by_cases hin : lo ≤ i ∧ i - lo < len
  · have hbit : w[i] = false := by
      simpa [field, hin.2, Nat.add_sub_cancel' hin.1, hi] using congrArg (·.getLsbD (i - lo)) h
    simp [hbit]
  · have hbit : (fieldMask lo len)[i] = false := by
      simp [fieldMask]
      omega
    simp [hbit]

/-- The reserved-zero bits of a decoded request's first word are zero (R58). -/
theorem and_reservedMask_of_request {w : Word} {rest : List Word} {i : Instr} {n : Nat}
    (h : decode (w :: rest) = .request i n) : w &&& reservedMask (opField w) = 0 := by
  unfold reservedMask
  rcases decode_eq_request_iff.mp h with ⟨hop, hres, -⟩ | ⟨hop, hres, -⟩ | ⟨hop, hres, -⟩ | ⟨hop, hres, -⟩ |
    ⟨hop, hres, -⟩ | ⟨hop, hres, -⟩ | ⟨hop, -, -, -, h25, h20, -⟩ | ⟨hop, -, -, hres, -⟩
  iterate 6 (rw [hop]; exact and_fieldMask hres)
  · rw [hop]
    change w &&& (fieldMask 25 3 ||| fieldMask 20 4) = 0
    rw [BitVec.and_or_distrib_left, and_fieldMask h25, and_fieldMask h20, BitVec.or_self]
  · rw [hop]
    exact and_fieldMask hres

/-! ## The padding behind a terminator (R58) -/

/-- Every byte behind the first 0x00 is 0x00, when the bytes from there on are. -/
theorem eq_zero_behind_terminator {l : List Byte} (hpad : (l.dropWhile (· ≠ 0)).any (· ≠ 0) = false) {j k : Nat}
    (hjk : j < k) (hj : l[j]? = some 0) {b : Byte} (hk : l[k]? = some b) : b = 0 := by
  induction l generalizing j k with
  | nil => simp at hj
  | cons a l ih =>
    by_cases ha : a = 0
    · subst ha
      rw [List.dropWhile_cons_of_neg (by simp)] at hpad
      simpa using List.any_eq_false.mp hpad b (List.mem_of_getElem? hk)
    · rw [List.dropWhile_cons_of_pos (by simpa using ha)] at hpad
      cases j with
      | zero => exact absurd (Option.some.inj hj) ha
      | succ j =>
        cases k with
        | zero => omega
        | succ k => exact ih hpad (by omega) hj hk

theorem wordBytes_ne_zero {pre : List Word} (hpre : ∀ v ∈ pre, ∀ b ∈ wordBytes v, b ≠ 0) :
    ∀ b ∈ pre.flatMap wordBytes, decide (b ≠ 0) = true := by
  simpa using fun b v hv hb => hpre v hv b hb

/-- A TEXT is decoded from its string words up to and including the first that holds a 0x00 byte (R46, R54). -/
theorem decode_text {w : Word} {pre post : List Word} {last : Word} (hop : opField w = 0x8#4)
    (hpre : ∀ v ∈ pre, ∀ b ∈ wordBytes v, b ≠ 0) (hlast : (0 : Byte) ∈ wordBytes last) :
    decode (w :: (pre ++ [last] ++ post)) = decodeT w (pre ++ [last]) := by
  have hwords : stringWords (pre ++ [last] ++ post) = some (pre ++ [last]) :=
    (stringWords_eq_some_iff _ _).mpr ⟨pre, last, post, rfl, rfl, hpre, hlast⟩
  refine (decode_of_op hop _).trans ?_
  change decodeText w _ = _
  rw [decodeText, hwords]

/-! ## Operand ranges (R59) -/

theorem not_printable {ch : Byte} (h : ch.toNat < 0x20 ∨ 0x7E < ch.toNat) : ¬isPrintable ch = true := by
  rw [isPrintable_iff]
  omega

end Sys2Proof
end

section
/-!
SUPPORT. When the block is stuck (R61, R102), and a TEXT drawn by its layout plan (R92).
-/

namespace Sys2Proof.Machine

open Sys2Proof.Claims

/-! ## Stuck -/

/-- The block is stuck exactly where decode runs out of words inside the stream (R102): no request answers that stop. -/
theorem step_stuck_iff {s : State} :
    step s = .fault .stuck ↔
      s.fault = .none ∧ s.rp ≠ s.stream.length ∧ decode (s.stream.drop s.rp) = .incomplete := by
  unfold step fetch
  by_cases hf : s.fault = .none
  · by_cases hr : s.rp = s.stream.length
    · simp [hf, hr]
    · cases hd : decode (s.stream.drop s.rp) with
      | request i n =>
        obtain ⟨t, ht, -⟩ := exec_cases i s
        simp [hf, hr, ht]
      | illegal why => simp [hf, hr]
      | incomplete => simp [hf, hr]
  · simp [hf]

/-- Inside the stream, decode runs out of words at an incomplete request or at the stream's end (R61, R111). -/
theorem incomplete_at_rp_iff {s : State} (h : s.rp ≤ s.stream.length) :
    Incomplete (s.stream.drop s.rp) ↔ s.rp ≠ s.stream.length ∧ decode (s.stream.drop s.rp) = .incomplete := by
  by_cases hr : s.rp = s.stream.length
  · rw [hr, List.drop_length]
    exact ⟨fun ⟨_, _, hnil, _⟩ => (nomatch hnil), fun h => absurd rfl h.1⟩
  · rw [List.drop_eq_getElem_cons (by omega), decode_incomplete_iff]
    exact ⟨fun hi => ⟨hr, hi⟩, fun hi => hi.2⟩

/-! ## The length of a request by its OP -/

/-- The length a decoded request has by its OP (R46). -/
theorem decode_length_by_op {w : Word} {rest : List Word} {i : Instr} {n : Nat}
    (h : decode (w :: rest) = .request i n) :
    ((opField w).toNat ≤ 6 ∧ n = 1) ∨ ((opField w).toNat = 7 ∧ n = 2) ∨
      ((opField w).toNat = 8 ∧ ∃ ws, stringWords rest = some ws ∧ n = 1 + ws.length) := by
  rcases decode_eq_request_iff.mp h with ⟨hop, -, -, rfl⟩ | ⟨hop, -, -, rfl⟩ | ⟨hop, -, -, rfl⟩ | ⟨hop, -, -, rfl⟩ |
    ⟨hop, -, -, rfl⟩ | ⟨hop, -, -, -, rfl⟩ | ⟨hop, -, -, -, -, -, -, -, rfl⟩ | ⟨hop, ws, hws, -, -, -, -, rfl⟩
  iterate 6 exact .inl ⟨by omega, rfl⟩
  · exact .inr (.inl ⟨hop, rfl⟩)
  · exact .inr (.inr ⟨hop, ws, hws, rfl⟩)

/-! ## A text drawn by its plan -/

/-- A move inside the plan's bounds is its glyph drawn whole, after its layout clear (R88, R92). -/
theorem drawMove_eq_glyphDrawn {x y : Nat} (hx : x ≤ 122) (hy : y ≤ 58) (ch : Byte) (clears : Bool) (s : State) :
    drawMove s ⟨x, y, ch, clears⟩ = glyphDrawn x y ch .px12 true (if clears then layoutClear s else s) := by
  have h8 : x + 8 ≤ 255 := by omega
  have h12 : y + fontHeight .px12 ≤ 255 := by simp only [fontHeight]; omega
  rw [drawMove, drawGlyphCore_eq_ok h8 h12, state_ok]

/-- A text that does not overflow draws its moves one after the other (R92). -/
theorem textCore_eq_plan (chars : List Byte) (x y : Nat) (h : ¬TextOverflows chars x y) (s : State) :
    ∃ cur, textCore chars ⟨x, y⟩ s = .ok cur ((textPlan chars x y).foldl drawMove s) := by
  induction chars generalizing x y s with
  | nil => exact ⟨_, rfl⟩
  | cons ch rest ih =>
    have hwrap : 122 < x → y + 16 ≤ 255 := fun hx => by simpa [TextOverflows, hx] using h
    rw [textCore_cons ch rest x y hwrap, textPlan_cons]
    have hx1 : (if 122 < x then 0 else x) ≤ 122 := by split <;> omega
    generalize (if 122 < x then 0 else x) = x1 at hx1
    generalize (if 122 < x then y + 16 else y) = y1
    split
    · rw [List.foldl_cons, drawMove_eq_glyphDrawn (by omega) (by omega)]
      exact ih 8 0 (fun ho => by have := ho.2.1; omega) _
    · rw [List.foldl_cons, drawMove_eq_glyphDrawn hx1 (by omega)]
      exact ih (x1 + 8) y1 (fun ho => by have := ho.2.2; omega) _

/-- Every glyph of a text begins at x ≤ 122 and y ≤ 58 (R92). -/
theorem textPlan_bounds (chars : List Byte) (x y : Nat) : ∀ m ∈ textPlan chars x y, m.x ≤ 122 ∧ m.y ≤ 58 := by
  induction chars generalizing x y with
  | nil => simp [textPlan]
  | cons ch rest ih =>
    rw [textPlan_cons]
    have hx1 : (if 122 < x then 0 else x) ≤ 122 := by split <;> omega
    by_cases hy : 58 < (if 122 < x then y + 16 else y)
    · rw [if_pos hy]
      exact List.forall_mem_cons.mpr ⟨⟨Nat.zero_le _, Nat.zero_le _⟩, ih _ _⟩
    · rw [if_neg hy]
      exact List.forall_mem_cons.mpr ⟨⟨hx1, Nat.not_lt.mp hy⟩, ih _ _⟩

end Sys2Proof.Machine
end

section
/-!
PROOFS. The obligations of 30_encoding.md, from what decode answers for each OP, what a step can do, and a TEXT as its
layout plan tells it.
-/

namespace Sys2Proof.Machine

open Sys2Proof.Claims

/-- Settles O3: the fields of each format read back the operands, and a text's string words are found whole. -/
theorem decodeOfEncode : Obligations.DecodeOfEncode := fun _ rest h => decode_encode h rest

/-- Settles O4: the fields of a first word, and the bytes of the string words, determine the words. -/
theorem encodeOfDecode : Obligations.EncodeOfDecode :=
  fun _ _ _ h => ⟨wellFormed_of_decode h, (decode_length h).1, encode_of_decode h⟩

/-- Settles O5: decode has no format for a reserved OP, and a step raises what decode refuses. -/
theorem reservedOpcodesAreIllegal : Obligations.ReservedOpcodesAreIllegal := by
  intro s w rest hf hs hop
  have hd : decode (w :: rest) = .illegal .reservedOp := decodeOp_reserved (op_of_mem_reserved _ hop) w rest
  exact ⟨⟨_, hd⟩, step_of_illegal hf (hs ▸ hd)⟩

/-- Settles O6: a decoded request has zero reserved bits and zero padding. -/
theorem reservedBitsAreIllegal : Obligations.ReservedBitsAreIllegal := by
  refine fun w rest hc => ⟨fun hbits => ?_, fun hop pre last post hrest hpre hpad => ?_⟩
  · exact isIllegal_of_no_request hc fun i n h => hbits (and_reservedMask_of_request h)
  · obtain ⟨j, k, hjk, hj, b, hk, hb⟩ := hpad
    refine isIllegal_of_no_request hc fun i n h => ?_
    subst hrest
    rw [decode_text hop hpre (List.mem_of_getElem? hj)] at h
    obtain ⟨-, hzeros, -⟩ := decodeT_eq_request_iff.mp h
    rw [List.flatMap_append, List.flatMap_singleton, List.dropWhile_append_of_pos (wordBytes_ne_zero hpre)] at hzeros
    exact hb (eq_zero_behind_terminator hzeros hjk hj hk)

/-- Settles O7: only well-formed requests are decoded. -/
theorem operandRangesAreIllegal : Obligations.OperandRangesAreIllegal := by
  refine ⟨fun w rest hop hch => ?_, fun w w1 rest hop hn => ?_, fun w pre last post hop hpre hlast hch => ?_⟩
  · refine isIllegal_of_no_request (complete_of_op (by simp [hop]) (by simp [hop])) fun i n h => ?_
    rw [decode_of_op hop] at h
    obtain ⟨-, hwf, -⟩ := decodeG_eq_request_iff.mp h
    exact not_printable hch hwf
  · refine isIllegal_of_no_request ?_ fun i n h => ?_
    · rintro ⟨w, rest, ⟨⟩, ⟨-, h⟩ | ⟨h, -⟩⟩
      · cases h
      · simp [hop] at h
    · rw [decode_of_op hop] at h
      obtain ⟨-, -, hwf, -⟩ := decodeN_eq_request_iff.mp h
      exact absurd (of_decide_eq_true hwf) (Nat.not_le.mpr hn)
  · obtain ⟨ch, hmem, hrange⟩ := hch
    refine isIllegal_of_no_request ?_ fun i n h => ?_
    · rintro ⟨w, rest, ⟨⟩, ⟨h, -⟩ | ⟨-, h⟩⟩
      · simp [hop] at h
      · exact h last (by simp) 0 hlast rfl
    · rw [decode_text hop hpre hlast] at h
      obtain ⟨-, -, hwf, -⟩ := decodeT_eq_request_iff.mp h
      exact not_printable hrange (List.all_eq_true.mp hwf ch hmem)

/-- Settles O8: decode gives each OP its length, and a completed request advances by its own. -/
theorem requestLengths : Obligations.RequestLengths := by
  refine ⟨fun w rest i n h => ⟨(decode_length h).2, ?_⟩, fun s t i n hf ht => ?_⟩
  · change ((opField w).toNat ∈ _ → _) ∧ ((opField w).toNat = 7 → _) ∧ ((opField w).toNat = 8 → _)
    rcases decode_length_by_op h with ⟨hop, rfl⟩ | ⟨hop, rfl⟩ | ⟨hop, ws, hws, rfl⟩
    · exact ⟨fun _ => rfl, by omega, by omega⟩
    · exact ⟨by simp [hop], fun _ => rfl, by omega⟩
    · obtain ⟨pre, last, post, hrest, rfl, hpre, hlast⟩ := (stringWords_eq_some_iff rest ws).mp hws
      exact ⟨by simp [hop], by omega, fun _ => ⟨pre, last, post, hrest, hpre, hlast, by simp⟩⟩
  · obtain ⟨u, hu, hc⟩ := exec_cases i s
    obtain rfl := next_unique hu ((step_of_request hf.1 hf.2).symm.trans ht.1)
    rcases hc with hc | ⟨code, hcause, rfl⟩
    · rw [hc.rp, (fetches_length hf).1]
    · exact absurd ht.2 hcause.ne_none

/-- Settles O10: a request runs and an illegal one faults, so the block is stuck where decode runs out of words. -/
theorem incompleteRequestsAreStuck : Obligations.IncompleteRequestsAreStuck := by
  intro s hrp
  rw [step_stuck_iff, incomplete_at_rp_iff hrp]
  exact ⟨fun h => ⟨h, fun hfin => h.2.1 hfin.2⟩, id⟩

/-- Settles O50: a text is the drawing of its plan, which changes the framebuffer, TRACE and LINES alone. -/
theorem textLayout : Obligations.TextLayout := by
  intro s x y chars hm ho
  refine ⟨?_, textPlan_bounds chars _ _⟩
  obtain ⟨cur, ht⟩ := textCore_eq_plan chars x.toNat y.toNat ho s
  obtain ⟨cur', t, ht', hs⟩ := textCore_sends chars x.toNat y.toNat (fun hne hx => by
    simpa [TextOverflows, hne, hx] using ho) s
  obtain ⟨-, hplan⟩ := Draw.ok.inj (ht.symm.trans ht')
  refine ⟨t.complete .ok (1 + textWords chars), ?_, ?_, hs.mode, hs.fault, hs.stream, hs.params⟩
  · rw [exec_text_ready hm, ht', finish_ok]
  · rw [hplan, ← hs.resp, ← hs.rp]
    rfl

/-- Settles O2: decode evaluated on the eight words. -/
theorem decodesWrittenWords : Obligations.DecodesWrittenWords :=
  ⟨rfl, rfl, rfl, rfl, rfl, rfl, rfl, rfl⟩

/-- Settles O56: a line and its expansion stand for one request. -/
theorem pseudoInstructions : Obligations.PseudoInstructions :=
  ⟨fun _ => ⟨rfl, rfl⟩, fun _ _ => ⟨rfl, rfl⟩, fun l => by cases l <;> rfl⟩

end Sys2Proof.Machine
end

section
/-!
SUPPORT. The link in the words of the obligations: the 25 events of a byte, the link bytes as drives of CLK, DIN and DC
alone (R73), and the pairs a completed request adds to the decoded stream (R72, R74).
-/

namespace Sys2Proof.Machine

open Sys2Proof.Claims

/-! ## The events of one byte -/

/-- The machine's shift register drives the bits of R65's loop. -/
theorem sendByteEvents_eq_byteEvents (v : Byte) (c : Bool) : sendByteEvents v c = byteEvents v c := by
  have hdc : modeSelect c = c := by cases c <;> rfl
  rw [sendByteEvents, shiftOut_eight, hdc]
  rfl

theorem byteEvents_length (v : Byte) (c : Bool) : (byteEvents v c).length = 25 := by
  rw [← sendByteEvents_eq_byteEvents, sendByteEvents_length]

/-- SendByte as one update of LINES and TRACE (R65, R72). -/
theorem sendByte_eq (v : Byte) (c : Bool) (s : State) :
    sendByte v c s =
      { s with
        lines := ⟨.high, if v.getLsbD 0 then .high else .low, s.lines.res, if c then .high else .low⟩,
        trace := s.trace ++ byteEvents v c } := by
  have hdin : Level.ofBit (v.getLsbD 0) = if v.getLsbD 0 then .high else .low := by cases v.getLsbD 0 <;> rfl
  have hdc : Level.ofBit (modeSelect c) = if c then .high else .low := by cases c <;> rfl
  rw [sendByte, State.emit, lines_after_sendByte, sendByteEvents_eq_byteEvents, hdin, hdc]

/-! ## The reset line -/

/-- A byte's events drive CLK, DIN and DC alone (R73). -/
theorem res_notMem_sendByteEvents (v : Byte) (c l : Bool) : Event.line .res l ∉ sendByteEvents v c := by
  simp [sendByteEvents_eq, bitsOf, bitEvents]

theorem res_notMem_linkEvents (bs : List (Byte × Bool)) (l : Bool) : Event.line .res l ∉ linkEvents bs := by
  rw [linkEvents, List.mem_flatMap]
  rintro ⟨b, -, hmem⟩
  exact res_notMem_sendByteEvents b.1 b.2 l hmem

/-! ## The decoded stream of a completed request -/

/-- A request that is fetched and whose step completes is one `Completed` speaks of (R95.1). -/
theorem completed_of_fetches {s t : State} {i : Instr} {n : Nat} (hf : Fetches s i n) (ht : Completes s t) :
    Completed i s t := by
  obtain ⟨u, hu, hc⟩ := exec_cases i s
  obtain rfl := next_unique hu ((step_of_request hf.1 hf.2).symm.trans ht.1)
  rcases hc with hc | ⟨code, hcause, rfl⟩
  · exact hc
  · exact absurd ht.2 hcause.ne_none

/-- The observer sees nothing of INIT's reset pulse (R70, R75). -/
theorem frame_leadEvents (f : Framer) (i : Instr) : (leadEvents i).foldl Framer.event f = f := by
  cases i <;> rfl

/-- A request's events append exactly the pairs of its link bytes to the decoded stream (R72, R74). -/
theorem decoded_append_request {tr : List Event} (h : 8 ∣ risingEdges tr) (i : Instr) (bs : List (Byte × Bool)) :
    decoded (tr ++ (leadEvents i ++ linkEvents bs)) = decoded tr ++ bs.map fun b => linkPair b.1 b.2 := by
  rw [← decoded_append_bytes tr h, decoded, decoded, frameTrace, frameTrace, List.foldl_append, List.foldl_append,
    frame_leadEvents, List.foldl_append, linkEvents]

/-- The pairs of a blank frame (R82, R84). -/
theorem refreshSent_zeroFB_pairs (s : State) :
    (refreshSent (zeroFB s)).map (fun b => linkPair b.1 b.2) = framePairs s.params fun _ _ => 0 := by
  simp only [refreshSent_pairs, refreshBytes, zeroFB_fbByte, zeroFB_params, framePairs]

/-- The link bytes of a request are the bytes of its SendBytes, in order (R71, R77, R82, R85, R92). -/
theorem bytesSent_pairs (s : State) (i : Instr) : (bytesSent s i).map (fun b => linkPair b.1 b.2) = sent s i := by
  cases i with
  | init =>
    rw [bytesSent, List.map_append, List.map_map, refreshSent_zeroFB_pairs]
    rfl
  | refresh => exact refreshSent_pairs s
  | clear => exact refreshSent_zeroFB_pairs s
  | text x y chars =>
    rw [bytesSent, sent, clearBytes, textClears_eq_layoutClears]
    split
    · rw [List.map_flatten, List.map_replicate, refreshSent_zeroFB_pairs]
    · rfl
  | _ => rfl

end Sys2Proof.Machine
end

section
/-!
PROOFS. The obligations of 40_serial_link.md, from the events of one byte, what a completed request appends to TRACE, and
the observer of the decoded stream.
-/

namespace Sys2Proof.Machine

open Sys2Proof.Claims

/-- Settles O25: a byte drives no RES, a fault drives nothing, and only INIT has events before its link bytes, its reset
pulse. -/
theorem resetLineMovesOnlyInInit : Obligations.ResetLineMovesOnlyInInit := by
  refine ⟨fun s v c => ⟨_, sendByte_trace v c s, res_notMem_sendByteEvents v c, ?_⟩, fun s t hs hinit => ?_,
    fun s t n hf ht => ⟨_, ?_, res_notMem_linkEvents (bytesSent s .init)⟩⟩
  · rw [sendByte_lines, lines_after_sendByte]
  · rcases step_completes_or_faults hs with ⟨i, hf, -, hc⟩ | ⟨code, -, rfl⟩
    · have hlead : leadEvents i = [] := leadEvents_of_ne_init fun hi => hinit _ (hi ▸ hf)
      have hlines := hc.lines
      have htrace := hc.trace
      rw [hlead, List.nil_append] at hlines htrace
      exact ⟨by rw [hlines]; exact lines_after_bytes_res _ _, _, htrace, res_notMem_linkEvents _⟩
    · exact ⟨rfl, [], (List.append_nil _).symm, fun _ => List.not_mem_nil⟩
  · rw [(completed_of_fetches hf ht).trace, ← List.append_assoc]
    rfl

/-- Settles O31: the 25 events leave the lines of R72, and the observer reads one pair from them. -/
theorem sendByteOnTheLink : Obligations.SendByteOnTheLink := by
  refine fun s v c => ⟨sendByte_eq v c s, byteEvents_length v c, fun h => ?_⟩
  have hdecoded := decoded_append_bytes s.trace h [(v, c)]
  rwa [List.flatMap_singleton, ← sendByte_trace] at hdecoded

/-- Settles O32: a completed request appends its lead events, which no observer of the clock sees, and its link bytes. -/
theorem completedRequestSendsItsBytes : Obligations.CompletedRequestSendsItsBytes := by
  intro s t i n hf ht h
  rw [(completed_of_fetches hf ht).trace]
  exact ⟨by rw [decoded_append_request h, bytesSent_pairs], framed_append_request h i _⟩

/-- Settles O30: in READY a SEND is its SendByte, then the response and the advance. -/
theorem sendResult : Obligations.SendResult := by
  intro s isCommand v hm
  rw [exec_send_ready hm, sendByte_eq]
  rfl

end Sys2Proof.Machine
end

section
/-!
SUPPORT. A completed request as one update of the state (R95.1), and INIT's events and pairs in the words of the
obligations: INIT_SEQ as command bytes, then one blank frame (R76, R77, R82).
-/

namespace Sys2Proof.Machine

open Sys2Proof.Claims

/-- The frame of a completed request: FAULT, the stream and the parameters stay (R95.1). -/
theorem Completed.frame {i : Instr} {s t : State} (h : Completed i s t) :
    t = { s with mode := .ready, fb := t.fb, lines := t.lines, trace := t.trace, resp := s.resp ++ [responseOf i],
                 rp := s.rp + i.words } :=
  (State.mk.injEq ..).mpr ⟨h.mode, h.fault, h.rp, rfl, rfl, rfl, h.resp, h.stream, h.params⟩

/-- RefreshCore's events are those of a frame of the framebuffer's bytes (R82). -/
theorem refreshEvents_eq_frameEvents (s : State) : refreshEvents s = frameEvents s.params s.fbByte := by
  simp only [refreshEvents, pageHeaderEvents, pageDataEvents, sendByteEvents_eq_byteEvents, frameEvents]

theorem refreshEvents_zeroFB (s : State) : refreshEvents (zeroFB s) = frameEvents s.params fun _ _ => 0 := by
  have hblank : (zeroFB s).fbByte = fun _ _ => 0 := funext₂ (zeroFB_fbByte s)
  rw [refreshEvents_eq_frameEvents, hblank, zeroFB_params]

/-- INIT's link events: INIT_SEQ as command bytes, then a blank frame, with nothing between (R76, R77). -/
theorem linkEvents_bytesSent_init (s : State) :
    linkEvents (bytesSent s .init) =
      (initSeqBytes s.params).flatMap (fun b => byteEvents b true) ++ frameEvents s.params fun _ _ => 0 := by
  have hseq : linkEvents ((initBytes s.params).map fun b => (b, true)) =
      (initSeqBytes s.params).flatMap fun b => byteEvents b true := by
    simp only [linkEvents, List.flatMap_map, sendByteEvents_eq_byteEvents]
    rfl
  have hframe : linkEvents (refreshSent (zeroFB s)) = frameEvents s.params fun _ _ => 0 :=
    (refreshEvents_eq _).symm.trans (refreshEvents_zeroFB s)
  rw [bytesSent, linkEvents_append, hseq, hframe]

/-- One frame is 8 pages of three command bytes and 128 data bytes (R82). -/
theorem framePairs_length (ps : Config.Params) (byteAt : Column → Page → Byte) :
    (framePairs ps byteAt).length = 1048 := by
  rw [framePairs, length_flatMap_const _ _ 131 (by simp)]
  simp

theorem sent_init_length (s : State) : (sent s .init).length = (initSeqBytes s.params).length + 1048 := by
  rw [sent, List.length_append, List.length_map, framePairs_length]

end Sys2Proof.Machine
end

section
/-!
PROOFS. The obligations of 41_init.md, from what an INIT in UNINIT completes with.
-/

namespace Sys2Proof.Machine

open Sys2Proof.Claims

/-- Settles O34: the events before INIT's link bytes are its pulse, and a completed request changes no other field. -/
theorem initTraceAndFrame : Obligations.InitTraceAndFrame := by
  intro s hm
  obtain ⟨t, ht, hc, -⟩ := exec_init_completed hm
  refine ⟨t, ht, ?_, hc.frame, rfl⟩
  rw [hc.trace, linkEvents_bytesSent_init, ← List.append_assoc, ← List.append_assoc]
  rfl

/-- Settles O35: an INIT completes in UNINIT alone, with a zeroed framebuffer and idle lines, and the observer reads
INIT_SEQ and one frame. -/
theorem stateAfterInit : Obligations.StateAfterInit := by
  intro s t n hf ht h
  have hc := completed_of_fetches hf ht
  have he : exec .init s = .next t := (step_of_request hf.1 hf.2).symm.trans ht.1
  obtain ⟨-, hfb, hlines⟩ := init_of_completed_uninit hc he (hc.ready.mp rfl)
  have hzero : ∀ c p, t.fbCell c p = some 0 := fun c p => by rw [State.fbCell, hfb, read_zero (fbaddr_lt c p)]
  have hdecoded := (completedRequestSendsItsBytes s t .init n hf ht h).1
  rw [hlines, hdecoded, List.length_append, sent_init_length]
  exact ⟨hc.mode, ht.2, hzero, rfl, rfl, rfl, rfl, hc.resp, hc.rp, rfl⟩

end Sys2Proof.Machine
end

section
/-!
SUPPORT. A refresh as one update of the state (R82), the place of each pair in a frame's 1048 pairs (R82), and SETPIX's
frame.
-/

namespace Sys2Proof.Machine

open Sys2Proof.Claims

/-! ## A refresh -/

theorem ofBit_eq_ite (b : Bool) : Level.ofBit b = if b then .high else .low := by cases b <;> rfl

/-- RefreshCore as one update of LINES and TRACE (R72, R82). -/
theorem refreshCore_eq (s : State) :
    refreshCore s =
      { s with
        lines := ⟨.high, if (s.fbByte 127 7).getLsbD 0 then .high else .low, s.lines.res, .low⟩,
        trace := s.trace ++ frameEvents s.params s.fbByte } := by
  rw [refreshCore, State.emit, lines_after_refresh, refreshEvents_eq_frameEvents, ofBit_eq_ite]
  rfl

/-- The blank frame: what a refresh of a zeroed framebuffer drives (R84, R85). -/
theorem refreshCore_zeroFB_eq (s : State) :
    refreshCore (zeroFB s) =
      { s with
        fb := Memory.zero, lines := ⟨.high, .low, s.lines.res, .low⟩,
        trace := s.trace ++ frameEvents s.params fun _ _ => 0 } := by
  rw [refreshCore, State.emit, lines_after_refresh, refreshEvents_zeroFB, zeroFB_fbByte]
  rfl

/-- A refresh adds the pairs of a frame of the framebuffer's bytes to the decoded stream (R74, R82). -/
theorem decoded_refreshCore {s : State} (h : 8 ∣ risingEdges s.trace) :
    decoded (refreshCore s).trace = decoded s.trace ++ framePairs s.params s.fbByte := by
  rw [refreshCore_trace, refreshEvents_eq, decoded_append_bytes _ h, refreshSent_pairs]
  rfl

/-! ## The places of a frame's pairs -/

/-- Entry `j` of piece `i` of a list put together from pieces of one length. -/
theorem getElem?_flatMap_const {α β : Type} {f : α → List β} {n : Nat} (hf : ∀ a, (f a).length = n) {j : Nat}
    (hj : j < n) (l : List α) (i : Nat) : (l.flatMap f)[n * i + j]? = l[i]?.bind fun a => (f a)[j]? := by
  induction l generalizing i with
  | nil => rfl
  | cons a l ih =>
    rw [List.flatMap_cons]
    cases i with
    | zero => simpa using List.getElem?_append_left (by rwa [hf a])
    | succ i =>
      rw [List.getElem?_append_right (by rw [hf a, Nat.mul_succ]; omega), hf a, List.getElem?_cons_succ, ← ih i]
      congr 1
      rw [Nat.mul_succ]
      omega

/-- The pairs one page adds to the decoded stream: its three commands, then its 128 bytes (R82). -/
def pagePairs (ps : Config.Params) (byteAt : Column → Page → Byte) (p : Page) : List (ByteKind × Byte) :=
  [(.cmd, ps.pageSel.get p), (.cmd, ps.colLo), (.cmd, ps.colHi)] ++
    (List.finRange 128).map fun c => (.data, byteAt c p)

theorem pagePairs_length (ps : Config.Params) (byteAt : Column → Page → Byte) (p : Page) :
    (pagePairs ps byteAt p).length = 131 := by
  simp [pagePairs]

theorem pagePairs_data (ps : Config.Params) (byteAt : Column → Page → Byte) (p : Page) (c : Column) :
    (pagePairs ps byteAt p)[3 + c.val]? = some (.data, byteAt c p) := by
  rw [pagePairs, List.getElem?_append_right (by simp)]
  simp

/-- The pairs of page p stand from 131 p on (R82). -/
theorem framePairs_getElem? (ps : Config.Params) (byteAt : Column → Page → Byte) (p : Page) {j : Nat} (hj : j < 131) :
    (framePairs ps byteAt)[131 * p.val + j]? = (pagePairs ps byteAt p)[j]? := by
  have hpage : (List.finRange 8)[p.val]? = some p := by simp
  have hframe : framePairs ps byteAt = (List.finRange 8).flatMap (pagePairs ps byteAt) := rfl
  rw [hframe, getElem?_flatMap_const (pagePairs_length ps byteAt) hj, hpage, Option.bind_some]

/-! ## SETPIX -/

theorem pixelResponse_eq (x y : Nat) : pixelResponse x y = if x ≤ 127 ∧ y ≤ 63 then .ok else .outOfBounds := by
  simp only [pixelResponse, inDisplay, decide_eq_true_eq]

/-- SetPixelCore in range stores to the byte its pixel maps to and to no other (R35, R80). -/
theorem setPixelCore_fbCell_ne (X : Column) (Y : Row) (on : Bool) (s : State) {c : Column} {p : Page}
    (h : ¬(c = (pixelMap X Y).column ∧ p = (pixelMap X Y).page)) :
    (setPixelCore X.val Y.val on s).fbCell c p = s.fbCell c p := by
  rw [setPixelCore_of_in (by omega) (by omega)]
  exact writePixel_fbCell_ne s X c Y p on fun ⟨hc, hp⟩ => h ⟨hc.symm, hp.symm⟩

end Sys2Proof.Machine
end

section
/-!
PROOFS. The obligations of 42_pixel_and_frame.md: a SETPIX as its SetPixelCore, a REFRESH and a CLEAR as their frame.
-/

namespace Sys2Proof.Machine

open Sys2Proof.Claims

/-- Settles O38: SETPIX is SetPixelCore, which sets one bit of the mapped byte, then the response of its range check. -/
theorem setpixResult : Obligations.SetpixResult := by
  intro s x y on hm
  refine ⟨_, exec_setpix_ready hm x y on, ?_, fun X Y => ?_, fun X Y hX hY c p hne => ?_, fun hout c p => ?_⟩
  · rw [setPixelCore_eq, pixelResponse_eq]
    rfl
  · simp only [complete_pixelAt, setPixelCore_pixelAt, eq_comm (a := x.toNat), eq_comm (a := y.toNat)]
  · rw [complete_fbCell, ← hX, ← hY, setPixelCore_fbCell_ne X Y on s hne]
  · rw [complete_fbCell, setPixelCore_of_out (by omega)]

/-- Settles O40: REFRESH is RefreshCore, then the response and the advance. -/
theorem refreshResult : Obligations.RefreshResult := by
  intro s hm
  rw [exec_refresh_ready hm, refreshCore_eq]
  rfl

/-- Settles O41: the pairs are those of a frame, 131 to a page. -/
theorem refreshPositions : Obligations.RefreshPositions := by
  intro s t hm hframed ht
  rw [next_unique ht (exec_refresh_ready hm), complete_trace]
  refine ⟨_, decoded_refreshCore hframed, framePairs_length _ _, fun p => ⟨?_, ?_, ?_, fun c => ?_⟩⟩
  · exact framePairs_getElem? s.params s.fbByte p (j := 0) (by omega)
  · exact framePairs_getElem? s.params s.fbByte p (j := 1) (by omega)
  · exact framePairs_getElem? s.params s.fbByte p (j := 2) (by omega)
  · rw [Nat.add_assoc, framePairs_getElem? _ _ p (by omega), pagePairs_data]

/-- Settles O42: CLEAR zeroes the framebuffer and sends the frame of it, blank in every byte. -/
theorem clearResult : Obligations.ClearResult := by
  intro s hm
  refine ⟨_, exec_clear_ready hm, ?_, fun c p => ?_, fun x y => ?_⟩
  · rw [refreshCore_zeroFB_eq]
    rfl
  · rw [complete_fbCell, refreshCore_fbCell, zeroFB_fbCell]
  · rw [complete_pixelAt, refreshCore_pixelAt, zeroFB_pixelAt]

end Sys2Proof.Machine
end

section
/-!
SUPPORT. The composite requests in the words of the obligations: the pixel of a cell as a bit of its glyph (R88), a
composite's completed state, and the glyph of the variant GLYPH_COLUMN_BREAK = true (R88).
-/

namespace Sys2Proof.Machine

open Sys2Proof.Claims

/-! ## Cells and completed composites -/

@[simp] theorem height_eq_fontHeight (font : Font) : height font = fontHeight font := by cases font <;> rfl

theorem cellPixel_eq_glyphBit (ps : Config.Params) (font : Font) (ch : Byte) (i j : Nat) :
    cellPixel ps font ch i j = glyphBit ps font ch (i * fontHeight font + j) := by
  rw [← height_eq_fontHeight]
  rfl

/-- What changed only the framebuffer and then completes changes FB, RESP and RP alone (R89, R91, R94). -/
theorem OnlyFb.complete_eq {s t : State} (h : OnlyFb s t) (r : Response) (n : Nat) :
    t.complete r n = { s with fb := (t.complete r n).fb, resp := s.resp ++ [r], rp := s.rp + n } := by
  rw [State.complete, State.respond, State.advance, h.eq]

/-- A composite request that completes answers OK (R94). -/
theorem responseOf_composite {i : Instr} (h : Composite i) : responseOf i = .ok := by
  cases i with
  | setpix x y on => exact h.elim
  | _ => rfl

/-! ## The column break -/

/-- With the column break a byte draws the bits up to its column's end and drops the rest, whether the glyph goes on or
overflows (R88). -/
theorem glyphBits_break (h x0 y0 : Nat) (hh : 0 < h) (normal : Bool) (k : Nat) (tmp : Byte) (n : Nat) (s : State) :
    glyphBits true h y0 normal k tmp (bitCursor x0 y0 h n) s =
      glyphBits false h y0 normal (min k (h - n % h)) tmp (bitCursor x0 y0 h n) s := by
  induction k generalizing tmp n s with
  | zero => rw [Nat.zero_min]; rfl
  | succ k ih =>
    have hm := Nat.mod_lt n hh
    have hmin : min (k + 1) (h - n % h) = min k (h - n % h - 1) + 1 := by omega
    rw [hmin]
    simp only [glyphBits, bitCursor]
    generalize setPixelCore (x0 + n / h) (y0 + n % h) _ s = t
    by_cases hy : y0 + n % h + 1 ≤ Config.coordMax
    · simp only [chk_of_le hy, bind_ok]
      rcases div_mod_succ (i := n) hh with ⟨hend, -, -⟩ | ⟨hin, hdiv, hmod⟩
      · have hlast : min k (h - n % h - 1) = 0 := by omega
        rw [if_pos (by omega), if_pos (by omega), hlast]
        rfl
      · have hnext : (⟨x0 + n / h, y0 + n % h + 1⟩ : Cursor) = bitCursor x0 y0 h (n + 1) := by
          rw [bitCursor, hdiv, hmod, Nat.add_assoc y0]
        have hrest : h - n % h - 1 = h - (n + 1) % h := by omega
        rw [if_neg (by omega), if_neg (by omega), hnext, hrest]
        exact ih _ _ _
    · simp only [chk_of_gt (Nat.not_le.mp hy), bind_overflow]

/-- A column of 16 pixels ends with its second byte, so that the break drops no bit (R88). -/
theorem glyphBytes_break_px16 (ch : Byte) (x0 y0 : Nat) (normal : Bool) (n t : Nat) (s : State) :
    glyphBytes true .px16 ch y0 normal n t (bitCursor x0 y0 16 (8 * t)) s =
      glyphBytes false .px16 ch y0 normal n t (bitCursor x0 y0 16 (8 * t)) s := by
  induction n generalizing t s with
  | zero => rfl
  | succ n ih =>
    have hwhole : min 8 (16 - 8 * t % 16) = 8 := by omega
    have hbits := glyphBits_break 16 x0 y0 (by decide) normal 8 (glyphByte s.params .px16 ch t) (8 * t) s
    rw [hwhole] at hbits
    rw [glyphBytes, glyphBytes, fontHeight, hbits]
    cases hd : glyphBits false 16 y0 normal 8 (glyphByte s.params .px16 ch t) (bitCursor x0 y0 16 (8 * t)) s with
    | overflow u => rw [bind_overflow, bind_overflow]
    | ok cur u =>
      obtain ⟨rfl, -⟩ := glyphBits_checks 16 x0 y0 (by decide) normal 8 _ _ s hd
      rw [bind_ok, bind_ok, show 8 * t + 8 = 8 * (t + 1) by omega]
      exact ih (t + 1) u

/-- Bit n of a 12-row glyph under the column break: column i is the bytes 2 i and 2 i + 1, the second without its low
four bits (R88). -/
def brokenBit (ps : Config.Params) (ch : Byte) (n : Nat) : Bool :=
  (glyphByte ps .px12 ch (2 * (n / 12) + n % 12 / 8)).getLsbD (7 - n % 12 % 8)

/-- One byte of a 12-row glyph under the column break: the byte 2 i draws 8 bits of column i, the byte 2 i + 1 the
other four (R88). -/
theorem glyphBits_break_px12 (ch : Byte) {x0 y0 : Nat} (normal : Bool) (hy : y0 + 12 ≤ Config.coordMax) {t n k : Nat}
    (hstart : n = 12 * (t / 2) + 8 * (t % 2)) (hk : k = 8 - 4 * (t % 2)) (hx : x0 + (n + k) / 12 ≤ Config.coordMax)
    (s : State) :
    glyphBits true 12 y0 normal 8 (glyphByte s.params .px12 ch t) (bitCursor x0 y0 12 n) s =
      .ok (bitCursor x0 y0 12 (n + k)) (drawBits x0 y0 12 normal (brokenBit s.params ch) n k s) := by
  have hrow : n % 12 = 8 * (t % 2) := by omega
  have hmin : min 8 (12 - n % 12) = k := by omega
  rw [glyphBits_break 12 x0 y0 (by decide), hmin]
  refine glyphBits_ok 12 x0 y0 (by decide) normal _ hy k _ n hx (by omega) (fun i hi => ?_) s
  have hbyte : 2 * ((n + i) / 12) + (n + i) % 12 / 8 = t := by omega
  have hbit : (n + i) % 12 % 8 = i := by omega
  rw [brokenBit, hbyte, hbit]

/-- One column of a 12-row glyph under the column break: two bytes draw its 12 bits (R88). -/
theorem glyphBytes_break_column (ch : Byte) {x0 y0 : Nat} (normal : Bool) (hy : y0 + 12 ≤ Config.coordMax) {i : Nat}
    (hx : x0 + (i + 1) ≤ Config.coordMax) (n : Nat) (s : State) :
    glyphBytes true .px12 ch y0 normal (n + 2) (2 * i) (bitCursor x0 y0 12 (12 * i)) s =
      glyphBytes true .px12 ch y0 normal n (2 * (i + 1)) (bitCursor x0 y0 12 (12 * (i + 1)))
        (drawBits x0 y0 12 normal (brokenBit s.params ch) (12 * i) 12 s) := by
  have heven := glyphBits_break_px12 ch (x0 := x0) normal hy (t := 2 * i) (n := 12 * i) (k := 8) (by omega) (by omega)
    (by omega) s
  have hodd := glyphBits_break_px12 ch (x0 := x0) normal hy (t := 2 * i + 1) (n := 12 * i + 8) (k := 4) (by omega)
    (by omega) (by omega) (drawBits x0 y0 12 normal (brokenBit s.params ch) (12 * i) 8 s)
  have hparams := (drawBits_onlyFb x0 y0 12 normal (brokenBit s.params ch) (12 * i) 8 s).params
  rw [hparams, ← drawBits_add] at hodd
  rw [glyphBytes, fontHeight, heven, bind_ok, glyphBytes, fontHeight, hparams, hodd, bind_ok]
  rfl

/-- The columns i, i + 1, ..., i + m - 1 of a 12-row glyph under the column break (R88). -/
theorem glyphBytes_break_px12 (ch : Byte) {x0 y0 : Nat} (normal : Bool) (hy : y0 + 12 ≤ Config.coordMax) (m i : Nat)
    (hx : x0 + (i + m) ≤ Config.coordMax) (s : State) :
    glyphBytes true .px12 ch y0 normal (2 * m) (2 * i) (bitCursor x0 y0 12 (12 * i)) s =
      .ok (bitCursor x0 y0 12 (12 * (i + m)))
        (drawBits x0 y0 12 normal (brokenBit s.params ch) (12 * i) (12 * m) s) := by
  induction m generalizing i s with
  | zero => rfl
  | succ m ih =>
    have hbits : 12 * (m + 1) = 12 + 12 * m := by omega
    have hcolumn : i + (m + 1) = i + 1 + m := by omega
    rw [Nat.mul_succ, glyphBytes_break_column ch normal hy (by omega), ih (i + 1) (by omega),
      (drawBits_onlyFb _ _ _ _ _ _ _ s).params, hbits, drawBits_add, hcolumn]
    rfl

theorem bitCursor_zero (x0 y0 h : Nat) : bitCursor x0 y0 h 0 = ⟨x0, y0⟩ := by simp [bitCursor]

/-- A 12-row glyph under the column break: 6 columns of 12 bits (R88). -/
theorem drawGlyphWith_break_px12 {x0 y0 : Nat} (ch : Byte) (normal : Bool) (hx : x0 + 6 ≤ Config.coordMax)
    (hy : y0 + 12 ≤ Config.coordMax) (s : State) :
    drawGlyphWith true x0 y0 ch .px12 normal s =
      .ok (bitCursor x0 y0 12 72) (drawBits x0 y0 12 normal (brokenBit s.params ch) 0 72 s) := by
  rw [drawGlyphWith, ← bitCursor_zero x0 y0 12]
  exact glyphBytes_break_px12 ch normal hy 6 0 (by omega) s

/-- A 16-row glyph is the same under the column break (R88). -/
theorem drawGlyphWith_break_px16 (x0 y0 : Nat) (ch : Byte) (normal : Bool) (s : State) :
    drawGlyphWith true x0 y0 ch .px16 normal s = drawGlyphWith false x0 y0 ch .px16 normal s := by
  rw [drawGlyphWith, drawGlyphWith, ← bitCursor_zero x0 y0 16]
  exact glyphBytes_break_px16 ch x0 y0 normal _ 0 s

theorem polarity_eq_beq (bit normal : Bool) : (if normal then bit else !bit) = (bit == normal) := by
  cases normal <;> simp

/-- The pixels of the bits of a 12-row glyph under the column break (R88). -/
theorem drawBits_break_pixelAt (x0 y0 : Nat) (ch : Byte) (normal : Bool) (s : State) (X : Column) (Y : Row) :
    (drawBits x0 y0 12 normal (brokenBit s.params ch) 0 72 s).pixelAt X Y =
      if x0 ≤ X.val ∧ X.val < x0 + 6 ∧ y0 ≤ Y.val ∧ Y.val < y0 + 12 then
        ((glyphByte s.params .px12 ch (2 * (X.val - x0) + (Y.val - y0) / 8)).getLsbD (7 - (Y.val - y0) % 8) == normal)
      else s.pixelAt X Y := by
  rw [drawBits_pixelAt x0 y0 12 (by decide), polarity_eq_beq, brokenBit]
  by_cases hcell : x0 ≤ X.val ∧ X.val < x0 + 6 ∧ y0 ≤ Y.val ∧ Y.val < y0 + 12
  · have hcolumn : ((X.val - x0) * 12 + (Y.val - y0)) / 12 = X.val - x0 := by omega
    have hrow : ((X.val - x0) * 12 + (Y.val - y0)) % 12 = Y.val - y0 := by omega
    rw [if_pos hcell, if_pos (by omega), hcolumn, hrow]
  · rw [if_neg hcell, if_neg (by omega)]

end Sys2Proof.Machine
end

section
/-!
SUPPORT. A number in the words of the obligations: its digits spell its value (R90), and the pixel of the last digit over
a column (R91).
-/

namespace Sys2Proof.Machine

open Sys2Proof.Claims

/-! ## Digits -/

/-- The first m digits of n places spell v without its low n - m digits (R90). -/
theorem foldl_digit (v : Nat) {n m : Nat} (hm : m ≤ n) :
    (List.range m).foldl (fun a t => 10 * a + digit v n t) 0 = v / 10 ^ (n - m) % 10 ^ m := by
  induction m with
  | zero => rw [Nat.pow_zero, Nat.mod_one]; rfl
  | succ m ih =>
    have hplaces : n - m = n - 1 - m + 1 := by omega
    have hlow : n - (m + 1) = n - 1 - m := by omega
    rw [List.range_succ, List.foldl_concat, ih (by omega), digit, hplaces, hlow, Nat.pow_succ, ← Nat.div_div_eq_div_mul,
      Nat.pow_succ', Nat.mod_mul, Nat.add_comm]

/-! ## Pixels of a number -/

theorem digitPitch_pos (font : Font) : 0 < digitPitch font := by cases font <;> decide

theorem digitPitch_le (font : Font) : digitPitch font ≤ 8 := by cases font <;> decide

/-- The digits 0 to k on every pixel of the display: over a column stands the last digit that begins at or before it
(R91). -/
theorem digitsDrawn_pixelAt (x0 y0 v n : Nat) (font : Font) (k : Nat) (s : State) (X : Column) (Y : Row) :
    (digitsDrawn x0 y0 v n font 0 (k + 1) s).pixelAt X Y =
      if x0 ≤ X.val ∧ X.val < x0 + k * digitPitch font + 8 ∧ y0 ≤ Y.val ∧ Y.val < y0 + fontHeight font then
        cellPixel s.params font (digitChar (digit v n (min ((X.val - x0) / digitPitch font) k)))
          (X.val - x0 - min ((X.val - x0) / digitPitch font) k * digitPitch font) (Y.val - y0)
      else s.pixelAt X Y := by
  have hp := digitPitch_pos font
  have hp8 := digitPitch_le font
  induction k with
  | zero =>
    rw [digitsDrawn_succ_last, glyphDrawn_pixelAt, Nat.min_zero, Nat.zero_mul, Nat.add_zero, Nat.sub_zero, beq_true,
      cellPixel_eq_glyphBit]
    rfl
  | succ k ih =>
    rw [digitsDrawn_succ_last, glyphDrawn_pixelAt, ih, (digitsDrawn_onlyFb _ _ _ _ _ _ _ s).params, beq_true,
      ← cellPixel_eq_glyphBit]
    have hstep : (k + 1) * digitPitch font = k * digitPitch font + digitPitch font := Nat.succ_mul _ _
    by_cases hlast : x0 + (k + 1) * digitPitch font ≤ X.val
    · have hd : min ((X.val - x0) / digitPitch font) (k + 1) = k + 1 :=
        Nat.min_eq_right ((Nat.le_div_iff_mul_le hp).mpr (by omega))
      rw [hd, Nat.sub_add_eq]
      by_cases hcell : x0 + (k + 1) * digitPitch font ≤ X.val ∧ X.val < x0 + (k + 1) * digitPitch font + 8 ∧
          y0 ≤ Y.val ∧ Y.val < y0 + fontHeight font
      · rw [if_pos hcell, if_pos (by omega)]
      · rw [if_neg hcell, if_neg (by omega), if_neg (by omega)]
    · have hd : min ((X.val - x0) / digitPitch font) (k + 1) = min ((X.val - x0) / digitPitch font) k := by
        have := (Nat.div_lt_iff_lt_mul hp).mpr (show X.val - x0 < (k + 1) * digitPitch font by omega)
        omega
      rw [hd, if_neg (fun h => hlast h.1)]
      exact if_congr (by omega) rfl rfl

end Sys2Proof.Machine
end

section
/-!
SUPPORT. A text from the origin (R92, R93): its layout as a grid of 16 columns and 4 lines, and the pixel of the last
character over each place of the grid.
-/

namespace Sys2Proof.Machine

open Sys2Proof.Claims

/-! ## The layout -/

/-- Where the layout from the origin puts character j: column j mod 16 of line j div 16, four lines a screen, with a
clear at every further screen (R92). -/
def gridMove (c : Byte × Nat) : TextMove :=
  ⟨8 * (c.2 % 16), 16 * (c.2 / 16 % 4), c.1, decide (c.2 ≠ 0 ∧ c.2 % 64 = 0)⟩

/-- The column of the cursor before character j: behind character j - 1 (R92). -/
def gridX (j : Nat) : Nat := if j = 0 then 0 else 8 * ((j - 1) % 16) + 8

/-- The row of the cursor before character j: that of character j - 1 (R92). -/
def gridY (j : Nat) : Nat := 16 * ((j - 1) / 16 % 4)

theorem gridX_succ (j : Nat) : gridX (j + 1) = 8 * (j % 16) + 8 := rfl

theorem gridY_succ (j : Nat) : gridY (j + 1) = 16 * (j / 16 % 4) := rfl

/-- The wrap test takes the cursor before character j to the column of character j (R92). -/
theorem wrapped_gridX (j : Nat) : (if 122 < gridX j then 0 else gridX j) = 8 * (j % 16) := by
  simp only [gridX]
  split_ifs <;> omega

/-- The wrap test takes the cursor before character j to the row of character j, or below the screen (R92). -/
theorem wrapped_gridY (j : Nat) :
    (if 122 < gridX j then gridY j + 16 else gridY j) = if j ≠ 0 ∧ j % 64 = 0 then 64 else 16 * (j / 16 % 4) := by
  simp only [gridX, gridY]
  split_ifs <;> omega

/-- The layout of R92 from the origin is the grid. -/
theorem textPlan_grid (chars : List Byte) (j : Nat) :
    textPlan chars (gridX j) (gridY j) = (chars.zipIdx j).map gridMove := by
  induction chars generalizing j with
  | nil => rfl
  | cons ch rest ih =>
    rw [textPlan_cons, wrapped_gridX, wrapped_gridY, List.zipIdx_cons, List.map_cons, ← ih (j + 1), gridX_succ,
      gridY_succ, gridMove]
    by_cases hscreen : j ≠ 0 ∧ j % 64 = 0
    · have hcolumn : j % 16 = 0 := by omega
      have hrow : j / 16 % 4 = 0 := by omega
      rw [if_pos hscreen, if_pos (by decide), hcolumn, hrow, decide_eq_true hscreen]
    · rw [if_neg hscreen, if_neg (by omega), decide_eq_false hscreen]

/-! ## The pixels -/

theorem drawMove_params (s : State) (m : TextMove) : (drawMove s m).params = s.params := by
  rw [drawMove, (drawGlyphCore_onlyFb _ _ _ _ _ _).params]
  split
  · exact (layoutClear_sends s).params
  · rfl

theorem foldl_drawMove_params (ms : List TextMove) (s : State) : (ms.foldl drawMove s).params = s.params := by
  induction ms generalizing s with
  | nil => rfl
  | cons m ms ih => rw [List.foldl_cons, ih, drawMove_params]

theorem layoutClear_pixelAt (s : State) (X : Column) (Y : Row) : (layoutClear s).pixelAt X Y = false := by
  rw [layoutClear_eq, emit_pixelAt, zeroFB_pixelAt]

/-- The character of the grid over the pixel (X, Y) on the screen of character j (R92). -/
def gridIndex (j : Nat) (X : Column) (Y : Row) : Nat := 64 * (j / 64) + 16 * (Y.val / 16) + X.val / 8

/-- One character of the grid on every pixel of the display (R88, R92). -/
theorem gridMove_pixelAt (ch : Byte) (j : Nat) (s : State) (X : Column) (Y : Row) :
    (drawMove s (gridMove (ch, j))).pixelAt X Y =
      if Y.val % 16 < 12 ∧ gridIndex j X Y = j then cellPixel s.params .px12 ch (X.val % 8) (Y.val % 16)
      else if j ≠ 0 ∧ j % 64 = 0 then false else s.pixelAt X Y := by
  have hparams : (if decide (j ≠ 0 ∧ j % 64 = 0) then layoutClear s else s).params = s.params := by
    split
    · exact (layoutClear_sends s).params
    · rfl
  rw [gridMove, drawMove_eq_glyphDrawn (by omega) (by omega), glyphDrawn_pixelAt, hparams, beq_true,
    ← cellPixel_eq_glyphBit, fontHeight, gridIndex]
  by_cases hcell : Y.val % 16 < 12 ∧ 64 * (j / 64) + 16 * (Y.val / 16) + X.val / 8 = j
  · have hcolumn : X.val - 8 * (j % 16) = X.val % 8 := by omega
    have hrow : Y.val - 16 * (j / 16 % 4) = Y.val % 16 := by omega
    rw [if_pos (by omega), if_pos hcell, hcolumn, hrow]
  · rw [if_neg (by omega), if_neg hcell]
    simp only [decide_eq_true_eq]
    split
    · exact layoutClear_pixelAt s X Y
    · rfl

/-- The grid drawn, on every pixel of the display: the character over it on the last screen, if there is one
(R92, R93). -/
theorem grid_pixelAt (chars : List Byte) (s : State) (X : Column) (Y : Row) :
    (((chars.zipIdx).map gridMove).foldl drawMove s).pixelAt X Y =
      if Y.val % 16 < 12 ∧ gridIndex (chars.length - 1) X Y < chars.length then
        cellPixel s.params .px12 (chars.getD (gridIndex (chars.length - 1) X Y) 0) (X.val % 8) (Y.val % 16)
      else if chars.length ≤ 64 then s.pixelAt X Y else false := by
  induction chars using List.reverseRecOn with
  | nil => simp
  | append_singleton chars ch ih =>
    rw [List.zipIdx_append, List.map_append, List.foldl_append]
    simp only [List.zipIdx_singleton, List.map_singleton, List.foldl_cons, List.foldl_nil, Nat.zero_add,
      List.length_append, List.length_singleton, Nat.add_sub_cancel]
    rw [gridMove_pixelAt, ih, foldl_drawMove_params]
    by_cases hlast : Y.val % 16 < 12 ∧ gridIndex chars.length X Y = chars.length
    · rw [if_pos hlast, if_pos (by omega), hlast.2]
      simp
    · rw [if_neg hlast]
      by_cases hclear : chars.length ≠ 0 ∧ chars.length % 64 = 0
      · have hfirst : chars.length ≤ gridIndex chars.length X Y := by rw [gridIndex]; omega
        rw [if_pos hclear, if_neg (by omega), if_neg (by omega)]
      · have hscreen : gridIndex (chars.length - 1) X Y = gridIndex chars.length X Y := by
          simp only [gridIndex]
          omega
        rw [if_neg hclear, hscreen]
        by_cases hbefore : Y.val % 16 < 12 ∧ gridIndex chars.length X Y < chars.length
        · rw [if_pos hbefore, if_pos (by omega), List.getD_append _ _ _ _ hbefore.2]
        · have hafter : ¬(Y.val % 16 < 12 ∧ gridIndex chars.length X Y < chars.length + 1) := by omega
          rw [if_neg hbefore, if_neg hafter]
          exact if_congr (by omega) rfl rfl

end Sys2Proof.Machine
end

section
/-!
PROOFS. The obligations of 43_drawing.md: a GLYPH, a NUMBER and a TEXT as the cells they draw, and the overflows that
leave nothing drawn.
-/

namespace Sys2Proof.Machine

open Sys2Proof.Claims

/-- Settles O44: a glyph that passes every check draws its cell, bit by bit. -/
theorem glyphPixels : Obligations.GlyphPixels := by
  intro s x y ch font normal hm hx hy
  simp only [height_eq_fontHeight, InCell] at hy ⊢
  have hglyph := glyphDrawn_onlyFb x.toNat y.toNat ch font normal s
  refine ⟨(glyphDrawn x.toNat y.toNat ch font normal s).complete .ok 1, ?_, hglyph.complete_eq .ok 1, fun X Y => ?_,
    fun c p hc => ?_⟩
  · rw [exec_glyph_ready hm, drawGlyphCore_eq_ok hx hy, finish_ok]
  · rw [complete_pixelAt, glyphDrawn_pixelAt, cellPixel_eq_glyphBit]
  · rw [complete_fbCell, glyphDrawn_fbCell _ _ _ _ _ _ _ _ hc]

/-- Settles O45: a glyph that overflows lies outside the display as far as it was drawn. -/
theorem glyphOverflow : Obligations.GlyphOverflow := by
  intro s x y ch font normal hm ho
  rw [height_eq_fontHeight] at ho
  rw [exec_glyph_ready hm, drawGlyphCore_overflow _ _ _ _ _ ho]
  rfl

/-- Settles O46: the break cuts each column of 12 rows off inside its second byte, and no column of 16 rows. -/
theorem glyphColumnBreakVariant : Obligations.GlyphColumnBreakVariant := by
  refine ⟨fun s x y ch normal hx hy => ?_, fun s x y ch normal => drawGlyphWith_break_px16 x y ch normal s⟩
  exact ⟨_, _, drawGlyphWith_break_px12 ch normal hx hy s, (drawBits_onlyFb _ _ _ _ _ _ _ s).eq,
    drawBits_break_pixelAt x y ch normal s⟩

/-- Settles O47: each digit is a remainder by 10, and reading one digit more undoes one division by 10. -/
theorem digitsSpellTheNumber : Obligations.DigitsSpellTheNumber := by
  intro v n _ _
  refine ⟨fun t _ => ⟨rfl, Nat.le_of_lt_succ (Nat.mod_lt _ (by decide)), fun hlow => ?_⟩, ?_⟩
  · rw [digit, Nat.div_eq_of_lt hlow]
  · rw [foldl_digit v le_rfl, Nat.sub_self, Nat.pow_zero, Nat.div_one]

/-- Settles O48: a number that passes every check draws its digits from the first to the last. -/
theorem numberPixels : Obligations.NumberPixels := by
  intro s x y n font v hm hfit
  simp only [height_eq_fontHeight, InCell] at hfit ⊢
  have hdigits := digitsDrawn_onlyFb x.toNat y.toNat v.toNat n.toNat font 0 n.toNat s
  have hok : numberDigits x.toNat y.toNat v.toNat n.toNat font n.toNat 0 s =
      .ok () (digitsDrawn x.toNat y.toNat v.toNat n.toNat font 0 n.toNat s) := by
    rcases hfit with rfl | ⟨hx, hy⟩
    · rfl
    · refine numberDigits_ok _ _ _ _ _ hy _ _ (fun j _ hj => ?_) s
      have hpitch : j * digitPitch font ≤ (n.toNat - 1) * (fontHeight font / 2) :=
        Nat.mul_le_mul_right _ (by omega)
      simp only [Config.coordMax]
      omega
  refine ⟨_, by rw [exec_number_ready hm, hok, finish_ok], hdigits.complete_eq .ok 2, fun c p hc => ?_, fun X Y => ?_⟩
  · rw [complete_fbCell, digitsDrawn_fbCell]
    exact fun j _ hj X Y => hc j X Y (by omega)
  · rw [complete_pixelAt]
    by_cases hn : n = 0
    · subst hn
      rw [if_neg (fun h => h.1 rfl)]
      rfl
    · have hpos : n.toNat ≠ 0 := fun h => hn (BitVec.eq_of_toNat_eq h)
      obtain ⟨k, hk⟩ := Nat.exists_eq_succ_of_ne_zero hpos
      rw [hk, Nat.succ_sub_one, digitsDrawn_pixelAt]
      simp only [hn, ne_eq, not_false_eq_true, true_and]
      rfl

/-- Settles O49: the digits before the overflowing one lie outside the display. -/
theorem numberOverflow : Obligations.NumberOverflow := by
  intro s x y n font v hm hn ho
  rw [height_eq_fontHeight] at ho
  have hpos : n.toNat ≠ 0 := fun h => hn (BitVec.eq_of_toNat_eq h)
  have hspan : (n.toNat - 1) * (fontHeight font / 2) ≤ 14 * 8 :=
    Nat.mul_le_mul (by have := n.isLt; omega) (digitPitch_le font)
  have hheight := fontHeight_le font
  rw [exec_number_ready hm, numberDigits_overflow _ _ _ _ _ (by omega) _ _ (by omega) (by rwa [Nat.zero_add]),
    finish_overflow]
  rfl

/-- Settles O52: the first character is the only one whose wrap can pass COORD_MAX; otherwise the TEXT is its layout. -/
theorem textOverflow : Obligations.TextOverflow := by
  intro s t x y chars hm hf ht
  by_cases ho : TextOverflows chars x.toNat y.toNat
  · obtain ⟨hne, hx, hy⟩ := id ho
    obtain ⟨ch, rest, rfl⟩ := List.exists_cons_of_ne_nil hne
    rw [exec_text_ready hm, textCore_cons_overflow ch rest hx hy, finish_overflow] at ht
    obtain rfl := Host.Outcome.next.inj ht
    exact ⟨by simp [ho], fun _ => rfl⟩
  · obtain ⟨⟨u, hu, -, -, hfault, -⟩, -⟩ := textLayout s x y chars hm ho
    obtain rfl := next_unique ht hu
    rw [hf] at hfault
    exact ⟨by simp [hfault, ho], fun h => absurd hfault h⟩

/-- Settles O53: from the origin the layout is the grid, and each pixel is that of the last character over it. -/
theorem textGridFromOrigin : Obligations.TextGridFromOrigin := by
  intro s chars hm
  have hfits : ¬TextOverflows chars (0 : Byte).toNat (0 : Byte).toNat := fun h => absurd h.2.1 (by decide)
  obtain ⟨⟨t, ht, hframe, -⟩, -⟩ := textLayout s 0 0 chars hm hfits
  refine ⟨t, ht, fun X Y => ?_⟩
  have hgrid := grid_pixelAt chars s X Y
  rw [← textPlan_grid chars 0] at hgrid
  rw [hframe]
  exact hgrid

/-- Settles O55: a composite that completes answers OK, and a fault answers nothing. -/
theorem compositesAnswerOk : Obligations.CompositesAnswerOk := by
  intro s t i n hf hcomp ht
  obtain ⟨u, hu, hc⟩ := exec_cases i s
  obtain rfl := next_unique hu ((step_of_request hf.1 hf.2).symm.trans ht)
  rcases hc with hc | ⟨code, hcause, rfl⟩
  · exact ⟨fun _ => responseOf_composite hcomp ▸ hc.resp, fun h => absurd (hc.fault.trans hf.1) h⟩
  · exact ⟨fun h => absurd h hcause.ne_none, fun _ => rfl⟩

/-- Settles O57: a printable character has an entry, and a byte index below the height has a byte in it. -/
theorem glyphByteRule : Obligations.GlyphByteRule := by
  intro ps ch lo hi
  have hindex : glyphIndex ch = some ⟨ch.toNat - 0x20, by omega⟩ := dif_pos ⟨lo, hi⟩
  refine ⟨fun t => ?_, fun t => ?_⟩
  · rw [glyphByte, hindex, Option.bind_some, romByte, Vector.getElem?_eq_getElem t.isLt]
    rfl
  · rw [glyphByte, hindex, Option.bind_some, romByte, Vector.getElem?_eq_getElem t.isLt]
    rfl

end Sys2Proof.Machine
end

section
/-!
SUPPORT. The outcomes of a step that are no next state (R95, R99, R111), the fault a request of the right mode can still
raise (R100), and the response OUT_OF_BOUNDS (R96).
-/

namespace Sys2Proof.Machine

open Sys2Proof.Claims

/-! ## The outcomes of a step -/

/-- A faulted block fetches nothing (R99). -/
theorem step_of_faulted {s : State} (h : s.Faulted) : step s = .fault (.halted s.fault) := by
  simp only [step, fetch, ne_eq, if_pos (show ¬s.fault = .none from h)]

/-- A finished run has no request (R95.4, R111). -/
theorem step_of_finished {s : State} (h : s.Finished) : step s = .fault .endOfStream := by
  simp only [step, fetch, h.1, h.2, ne_eq, not_true_eq_false, if_false, if_true]

/-- A step of any state halts, finds no request, is stuck or has a next state (R95, R99). -/
theorem step_outcomes (s : State) :
    (s.Faulted ∧ step s = .fault (.halted s.fault)) ∨ (s.Finished ∧ step s = .fault .endOfStream) ∨
      step s = .fault .stuck ∨ ∃ t, step s = .next t := by
  by_cases hf : s.fault = .none
  · by_cases hr : s.rp = s.stream.length
    · exact .inr (.inl ⟨⟨hf, hr⟩, step_of_finished ⟨hf, hr⟩⟩)
    · refine .inr (.inr ?_)
      cases hd : decode (s.stream.drop s.rp) with
      | incomplete => exact .inl (step_stuck_iff.mpr ⟨hf, hr, hd⟩)
      | illegal why => exact .inr ⟨_, step_of_illegal hf hd⟩
      | request i n =>
        obtain ⟨t, ht, -⟩ := exec_cases i s
        exact .inr ⟨t, (step_of_request hf hd).trans ht⟩
  · exact .inl ⟨hf, step_of_faulted hf⟩

/-! ## Faults after the mode check -/

/-- A request of the right mode can only overflow a coordinate, and only a composite does (R98, R100). -/
theorem FaultCause.coordOverflow_of_mode {i : Instr} {s : State} {code : FaultCode} (h : FaultCause i s code)
    (hmode : i = .init ↔ s.mode = .uninit) : code = .coordOverflow ∧ Composite i := by
  rcases h with ⟨-, hi, hm⟩ | ⟨-, hi, hm⟩ | ⟨hcode, -, hdraw⟩
  · exact absurd (hmode.mpr hm) hi
  · exact nomatch hm.symm.trans (hmode.mp hi)
  · refine ⟨hcode, ?_⟩
    rcases hdraw with ⟨_, _, _, _, _, rfl⟩ | ⟨_, _, _, _, _, rfl⟩ | ⟨_, _, _, rfl⟩ <;> trivial

/-! ## OUT_OF_BOUNDS -/

theorem pixelResponse_eq_outOfBounds_iff {x y : Nat} : pixelResponse x y = .outOfBounds ↔ 127 < x ∨ 63 < y := by
  rw [pixelResponse_eq]
  split
  · exact iff_of_false nofun (by omega)
  · exact iff_of_true rfl (by omega)

/-- Only a SETPIX outside the display answers OUT_OF_BOUNDS (R81, R96). -/
theorem responseOf_eq_outOfBounds {i : Instr} (h : responseOf i = .outOfBounds) :
    ∃ x y on, i = .setpix x y on ∧ (127 < x.toNat ∨ 63 < y.toNat) := by
  obtain ⟨x, y, on, rfl⟩ := setpix_of_responseOf h
  exact ⟨x, y, on, rfl, pixelResponse_eq_outOfBounds_iff.mp h⟩

end Sys2Proof.Machine
end

section
/-!
PROOFS. The obligations of 60_exceptions.md, from the outcomes of a step and from what a request can do.
-/

namespace Sys2Proof.Machine

open Sys2Proof.Claims

/-- Settles O13: a next state is a completion or a fault, and without one the block is stuck or at the stream's end. -/
theorem requestOutcomes : Obligations.RequestOutcomes := by
  intro s hf hrp
  rcases step_outcomes s with ⟨hfault, -⟩ | ⟨hfin, hend⟩ | hstuck | ⟨t, ht⟩
  · exact absurd hf hfault
  · exact .inr (.inr (.inr ⟨hend, hfin.2⟩))
  · exact .inr (.inr (.inl ⟨hstuck, (incomplete_at_rp_iff hrp).mpr (step_stuck_iff.mp hstuck).2⟩))
  · rcases step_completes_or_faults ht with ⟨i, -, -, hc⟩ | ⟨code, hne, rfl⟩
    · exact .inl ⟨t, responseOf i, ⟨ht, hc.fault.trans hf⟩, hc.resp⟩
    · exact .inr (.inl ⟨code, hne, ht⟩)

/-- Settles O14: a completed request keeps FAULT at NONE, so a state with FAULT set is `raiseFault` of the one before. -/
theorem faultEntryIsPrecise : Obligations.FaultEntryIsPrecise := by
  intro s t hs hfault
  refine ⟨?_, step_of_faulted hfault, fun hfin => hfault hfin.1⟩
  rcases step_completes_or_faults hs with ⟨i, hf, -, hc⟩ | ⟨code, -, rfl⟩
  · exact absurd (hc.fault.trans hf.1) hfault
  · rfl

/-- Settles O15: decode answers incomplete before illegal, and a request checks MODE before it runs. -/
theorem faultPriority : Obligations.FaultPriority := by
  intro s hf hrp
  refine ⟨fun hinc => ?_, fun ⟨why, hd⟩ => step_of_illegal hf hd, fun i n hd => ?_⟩
  · exact step_stuck_iff.mpr ⟨hf, (incomplete_at_rp_iff hrp.le).mp hinc⟩
  · rw [step_of_request hf hd]
    refine ⟨exec_uninit, fun hi hm => hi ▸ exec_init_ready hm, fun t hmode ht => ?_⟩
    obtain ⟨u, hu, hc⟩ := exec_cases i s
    obtain rfl := next_unique hu ht
    rcases hc with hc | ⟨code, hcause, rfl⟩
    · exact .inl (hc.fault.trans hf)
    · exact .inr (hcause.coordOverflow_of_mode hmode)

/-- Settles O39: SetPixelCore does nothing outside the display, and a completed request answers its own response. -/
theorem setpixOutOfBounds : Obligations.SetpixOutOfBounds := by
  refine ⟨fun s x y on hm hout => ?_, fun s t hs hresp => ?_⟩
  · rw [exec_setpix_ready hm, setPixelCore_of_out (by omega), pixelResponse_eq_outOfBounds_iff.mpr hout]
    rfl
  · rcases step_completes_or_faults hs with ⟨i, hf, -, hc⟩ | ⟨code, -, rfl⟩
    · have hanswer : responseOf i = .outOfBounds := by simpa using hc.resp.symm.trans hresp
      obtain ⟨x, y, on, rfl, hout⟩ := responseOf_eq_outOfBounds hanswer
      exact ⟨x, y, on, hf, hout⟩
    · simp at hresp

/-- Settles O18: a step halts, finds no request, is stuck or has a next state. -/
theorem nothingIsRefused : Obligations.NothingIsRefused := by
  intro s r hr
  rcases step_outcomes s with ⟨-, h⟩ | ⟨-, h⟩ | h | ⟨t, h⟩ <;> exact nomatch hr.symm.trans h

end Sys2Proof.Machine
end

section
/-!
SUPPORT. The events and the decoded bytes of a completed request, in number (R118), and a layout clear as the end of
everything drawn before it (R117).
-/

namespace Sys2Proof.Machine

open Sys2Proof.Claims

/-! ## Counts -/

/-- What a completed request adds to the decoded stream, in number (R118). -/
theorem sent_length (s : State) (i : Instr) : (sent s i).length = decodedCount s i := by
  cases i with
  | init => exact sent_init_length s
  | refresh => exact framePairs_length _ _
  | clear => exact framePairs_length _ _
  | text x y chars =>
    rw [sent, decodedCount]
    split
    · rw [List.length_flatten, List.map_replicate, framePairs_length, List.sum_replicate, smul_eq_mul, Nat.mul_comm]
    · rfl
  | _ => rfl

/-- Each decoded byte is 25 events, and INIT's reset pulse is three more (R67, R75, R118). -/
theorem eventCount_eq (s : State) (i : Instr) : eventCount s i = (leadEvents i).length + 25 * decodedCount s i := by
  cases i with
  | init => simp only [eventCount, leadEvents, resetPulseEvents, decodedCount, List.length_cons, List.length_nil]; omega
  | text x y chars =>
    simp only [eventCount, leadEvents, decodedCount, List.length_nil]
    split <;> omega
  | _ => simp only [eventCount, leadEvents, decodedCount, List.length_nil, Nat.zero_add, Nat.reduceMul]

/-- A request appends its lead events and the events of its link bytes, one byte for each decoded pair (R65, R118). -/
theorem requestEvents_length (s : State) (i : Instr) :
    (leadEvents i ++ linkEvents (bytesSent s i)).length = eventCount s i := by
  have hbytes : (bytesSent s i).length = decodedCount s i := by
    rw [← sent_length, ← bytesSent_pairs, List.length_map]
  rw [List.length_append, linkEvents, bytes_events_length, hbytes, eventCount_eq]

/-- The default INIT_SEQ is 25 bytes: 16 opcodes and 9 arguments (R64, R76). -/
theorem initSeqBytes_length_of_default {ps : Config.Params} (h : ps.initSeq = Config.defaultInitSeq) :
    (initSeqBytes ps).length = 25 := by
  simp [initSeqBytes, h, Config.defaultInitSeq, Config.initOrder, Config.InitCommand.defaultEntry]

/-! ## A layout clear -/

/-- The layout clear leaves nothing of the framebuffer it found, in any field of the state (R84, R92). -/
theorem layoutClear_of_fb (s : State) (m : List Host.Cell) : layoutClear { s with fb := m } = layoutClear s := rfl

theorem drawMove_of_fb {mv : TextMove} (h : mv.clears = true) (s : State) (m : List Host.Cell) :
    drawMove { s with fb := m } mv = drawMove s mv := by
  simp only [drawMove, h, if_true, layoutClear_of_fb]

/-- A move that does not clear changes the framebuffer alone (R40, R88). -/
theorem drawMove_onlyFb {mv : TextMove} (h : mv.clears = false) (s : State) : OnlyFb s (drawMove s mv) := by
  rw [drawMove, h]
  exact drawGlyphCore_onlyFb _ _ _ _ _ _

/-- What changes the framebuffer alone keeps two states that differ in it alone so. -/
theorem OnlyFb.of_fb {s t t' : State} {m : List Host.Cell} (h : OnlyFb s t) (h' : OnlyFb { s with fb := m } t') :
    t' = { t with fb := t'.fb } := by
  rw [h.eq]
  exact h'.eq

/-- Moves of which one clears end in the same state from every framebuffer: up to the clear the framebuffer is all that
differs, and the clear overwrites it (R117). -/
theorem foldl_drawMove_of_fb {ms : List TextMove} (h : 0 < ms.countP (·.clears)) (s : State) (m : List Host.Cell) :
    ms.foldl drawMove { s with fb := m } = ms.foldl drawMove s := by
  induction ms generalizing s m with
  | nil => simp at h
  | cons mv ms ih =>
    rw [List.foldl_cons, List.foldl_cons]
    by_cases hc : mv.clears = true
    · rw [drawMove_of_fb hc]
    · rw [List.countP_cons_of_neg hc] at h
      have hkeep := drawMove_onlyFb (Bool.eq_false_iff.mpr hc)
      rw [(hkeep s).of_fb (hkeep { s with fb := m }), ih h]

end Sys2Proof.Machine
end

section
/-!
PROOFS. The obligations of 70_reset_and_hazards.md, from what a completed request appends to TRACE, the outcomes of a
step, and a TEXT as its layout plan tells it.
-/

namespace Sys2Proof.Machine

open Sys2Proof.Claims

/-- Settles O16: at RP = 0 the step runs the request at word 0, in UNINIT, where only INIT completes. -/
theorem firstRequestMustBeInit : Obligations.FirstRequestMustBeInit := by
  intro ws i n hd
  have hstep : step (State.reset.load ws) = exec i (State.reset.load ws) := step_of_request rfl hd
  refine ⟨hstep, fun hi => hstep.trans (exec_uninit hi rfl), fun hi => ?_⟩
  subst hi
  obtain ⟨t, ht, hc, -⟩ := exec_init_completed (s := State.reset.load ws) rfl
  exact ⟨t, ⟨hstep.trans ht, hc.fault⟩, hc.mode⟩

/-- Settles O33: a completed request appends its lead events and 25 events for each byte the observer decodes. -/
theorem eventAndByteCounts : Obligations.EventAndByteCounts := by
  refine ⟨fun s t i n hf ht => ⟨?_, fun h => ?_⟩, fun s hseq => ?_⟩
  · rw [(completed_of_fetches hf ht).trace, List.length_append, requestEvents_length]
  · rw [(completedRequestSendsItsBytes s t i n hf ht h).1, List.length_append, sent_length]
  · rw [eventCount, initSeqBytes_length_of_default hseq]

/-- Settles O54: both runs complete as their layout's moves, and a move that clears forgets the framebuffer. -/
theorem textClearErases : Obligations.TextClearErases := by
  intro s m x y chars hm ho hclear
  obtain ⟨⟨t, ht, hframe, -⟩, -⟩ := textLayout s x y chars hm ho
  obtain ⟨⟨t', ht', hframe', -⟩, -⟩ := textLayout { s with fb := m } x y chars hm ho
  refine ⟨t, t', ht, ht', ?_⟩
  rw [foldl_drawMove_of_fb hclear] at hframe'
  rw [hframe, hframe']

/-- Settles O17: of the outcomes of a step, only that of a finished run is the end of the stream. -/
theorem finishedRunHasNoRequest : Obligations.FinishedRunHasNoRequest := by
  refine fun s => ⟨fun hend => ?_, step_of_finished⟩
  rcases step_outcomes s with ⟨-, h⟩ | ⟨hfin, -⟩ | h | ⟨t, h⟩
  · exact nomatch h.symm.trans hend
  · exact hfin
  · exact nomatch h.symm.trans hend
  · exact nomatch h.symm.trans hend

end Sys2Proof.Machine
end
